-- ==== Sys2Proof/Word.lean ====
section
/-! DEFINITION. The word types of the machine (spec/00_scope.md section 5: every value is unsigned). -/

namespace Sys2Proof

/-- A 4-bit field: a register number, a key, a row count, one hex digit (30_encoding.md R48). -/
abbrev Nibble := BitVec 4

/-- A byte: a general register, a memory cell, a timer counter (10_state.md R6, R15; 20_memory.md R28). -/
abbrev Byte := BitVec 8

/-- A 12-bit address field `NNN` of an instruction word (30_encoding.md R49). -/
abbrev Addr := BitVec 12

/-- A 16-bit word: an instruction, the program counter, the index register, a return address
(30_encoding.md R47; 10_state.md R9, R11, R13). -/
abbrev Word := BitVec 16

/-- The 32-bit state of the random source (10_state.md R18). -/
abbrev Seed := BitVec 32

end Sys2Proof
end

