-- ==== Sys2Proof/Syntax.lean ====
section
/-! DEFINITION. The 36 instructions of spec/opcode_table.json, one constructor per row, in the table's order.
The comment on each constructor is its word (30_encoding.md R48, R51) and the rule that gives its effect. -/

namespace Sys2Proof

inductive Instr where
  /-- `00E0` CLS (R105). -/
  | cls
  /-- `00EE` RET (R70). -/
  | ret
  /-- `00FD` NOP (R71). -/
  | nop
  /-- `0NNN` SYS nnn, an absolute jump (R72). -/
  | sys (nnn : Addr)
  /-- `1NNN` JP nnn (R73). -/
  | jp (nnn : Addr)
  /-- `2NNN` CALL nnn (R74). -/
  | call (nnn : Addr)
  /-- `3XKK` SE Vx, kk (R77). -/
  | seVxKk (x : Nibble) (kk : Byte)
  /-- `4XKK` SNE Vx, kk (R78). -/
  | sneVxKk (x : Nibble) (kk : Byte)
  /-- `5XY0` SE Vx, Vy (R79). -/
  | seVxVy (x y : Nibble)
  /-- `6XKK` LD Vx, kk (R85). -/
  | ldVxKk (x : Nibble) (kk : Byte)
  /-- `7XKK` ADD Vx, kk (R86). -/
  | addVxKk (x : Nibble) (kk : Byte)
  /-- `8XY0` LD Vx, Vy (R87). -/
  | ldVxVy (x y : Nibble)
  /-- `8XY1` OR Vx, Vy (R88). -/
  | orVxVy (x y : Nibble)
  /-- `8XY2` AND Vx, Vy (R89). -/
  | andVxVy (x y : Nibble)
  /-- `8XY3` XOR Vx, Vy (R90). -/
  | xorVxVy (x y : Nibble)
  /-- `8XY4` ADD Vx, Vy (R91). -/
  | addVxVy (x y : Nibble)
  /-- `8XY5` SUB Vx, Vy (R92). -/
  | subVxVy (x y : Nibble)
  /-- `8XY6` SHR Vx, Vy (R93). -/
  | shrVxVy (x y : Nibble)
  /-- `8XY7` SUBN Vx, Vy (R94). -/
  | subnVxVy (x y : Nibble)
  /-- `8XYE` SHL Vx, Vy (R95). -/
  | shlVxVy (x y : Nibble)
  /-- `9XY0` SNE Vx, Vy (R80). -/
  | sneVxVy (x y : Nibble)
  /-- `ANNN` LD I, nnn (R97). -/
  | ldI (nnn : Addr)
  /-- `BNNN` JP V0, nnn (R75). Its field `X` is the high nibble of `nnn` (R49, 90_conflicts.md C2; log 10). -/
  | jpV0 (nnn : Addr)
  /-- `CXKK` RND Vx, kk (R104). -/
  | rnd (x : Nibble) (kk : Byte)
  /-- `DXYN` DRW Vx, Vy, n (R106). -/
  | drw (x y n : Nibble)
  /-- `EX9E` SKP Vx (R81). -/
  | skp (x : Nibble)
  /-- `EXA1` SKNP Vx (R82). -/
  | sknp (x : Nibble)
  /-- `FX07` LD Vx, DT (R108). -/
  | ldVxDt (x : Nibble)
  /-- `FX0A` LD Vx, K (R109). -/
  | ldVxK (x : Nibble)
  /-- `FX15` LD DT, Vx (R110). -/
  | ldDtVx (x : Nibble)
  /-- `FX18` LD ST, Vx (R111). -/
  | ldStVx (x : Nibble)
  /-- `FX1E` ADD I, Vx (R98). -/
  | addIVx (x : Nibble)
  /-- `FX29` LD F, Vx (R99). -/
  | ldFVx (x : Nibble)
  /-- `FX33` LD B, Vx (R100). -/
  | ldBVx (x : Nibble)
  /-- `FX55` LD [I], Vx: store V0 to Vx (R101). -/
  | ldMiVx (x : Nibble)
  /-- `FX65` LD Vx, [I]: load V0 to Vx (R102). -/
  | ldVxMi (x : Nibble)
deriving DecidableEq, Repr

end Sys2Proof
end

