-- ==== Sys2Proof/WellFormed.lean ====
section
/-! DEFINITION. Which instructions some word encodes. Every operand field has its exact width, so one check is left:
the words 00E0, 00EE and 00FD are CLS, RET and NOP and never a `0NNN` jump (30_encoding.md R52, decision D16). -/

namespace Sys2Proof

/-- The three `0NNN` words that are instructions of their own (30_encoding.md R52). -/
def exactWordOperands : List Addr := [0x0E0, 0x0EE, 0x0FD]

/-- An instruction is well formed when a word of 30_encoding.md R51 decodes to it. -/
def Instr.wellFormed : Instr → Bool
  | .sys nnn => !exactWordOperands.contains nnn
  | _ => true

end Sys2Proof
end

