-- ==== Sys2Proof/Decode.lean ====
section
/-! DEFINITION. The decoder (30_encoding.md R47 to R55), total on any bytes and rejecting by name, and after it the
encoder, written from the same patterns (30_encoding.md R48, opcode_table.json). -/

namespace Sys2Proof

/-- Why bytes are no instruction. The five `illegal…` names are the five rows of 30_encoding.md R53. -/
inductive Reject where
  /-- Fewer than two bytes (30_encoding.md R47: every instruction is one 16-bit word). -/
  | truncated
  /-- `5XYn` with `n ≠ 0`. -/
  | illegal5XYn
  /-- `8XYn` with `n` one of 8, 9, A, B, C, D, F. -/
  | illegal8XYn
  /-- `9XYn` with `n ≠ 0`. -/
  | illegal9XYn
  /-- `EXkk` with `kk` neither 9E nor A1. -/
  | illegalEXkk
  /-- `FXkk` with `kk` none of 07, 0A, 15, 18, 1E, 29, 33, 55, 65. -/
  | illegalFXkk
deriving DecidableEq, Repr

/-- What the decoder answers. -/
inductive Decoded where
  | ok (i : Instr)
  | rejected (why : Reject)
deriving DecidableEq, Repr

/-- The decoded instruction, if there is one. -/
def Decoded.instr? : Decoded → Option Instr
  | .ok i => some i
  | .rejected _ => none

/-- The word whose high byte stands at the lower address (20_memory.md R33, R34). -/
def wordOfBytes (hi lo : Byte) : Word := hi ++ lo

/-- `op = W[15:12]` (30_encoding.md R49). -/
def opField (w : Word) : Nibble := w.extractLsb' 12 4
/-- `X = W[11:8]` (30_encoding.md R49). -/
def xField (w : Word) : Nibble := w.extractLsb' 8 4
/-- `Y = W[7:4]` (30_encoding.md R49). -/
def yField (w : Word) : Nibble := w.extractLsb' 4 4
/-- `N = W[3:0]` (30_encoding.md R49). -/
def nField (w : Word) : Nibble := w.extractLsb' 0 4
/-- `KK = W[7:0]` (30_encoding.md R49). -/
def kkField (w : Word) : Byte := w.extractLsb' 0 8
/-- `NNN = W[11:0]` (30_encoding.md R49). -/
def nnnField (w : Word) : Addr := w.extractLsb' 0 12

/-- The top-nibble-0 group: the three exact words, and every other one a jump (30_encoding.md R52). -/
def decode0 (w : Word) : Decoded :=
  if w = 0x00E0 then .ok .cls
  else if w = 0x00EE then .ok .ret
  else if w = 0x00FD then .ok .nop
  else .ok (.sys (nnnField w))

/-- The `8XY_` group (30_encoding.md R51). -/
def decode8 (x y n : Nibble) : Decoded :=
  match n.toNat with
  | 0x0 => .ok (.ldVxVy x y)
  | 0x1 => .ok (.orVxVy x y)
  | 0x2 => .ok (.andVxVy x y)
  | 0x3 => .ok (.xorVxVy x y)
  | 0x4 => .ok (.addVxVy x y)
  | 0x5 => .ok (.subVxVy x y)
  | 0x6 => .ok (.shrVxVy x y)
  | 0x7 => .ok (.subnVxVy x y)
  | 0xE => .ok (.shlVxVy x y)
  | _ => .rejected .illegal8XYn

/-- The `EX__` group (30_encoding.md R51). -/
def decodeE (x : Nibble) (kk : Byte) : Decoded :=
  if kk = 0x9E then .ok (.skp x)
  else if kk = 0xA1 then .ok (.sknp x)
  else .rejected .illegalEXkk

/-- The `FX__` group (30_encoding.md R51). -/
def decodeF (x : Nibble) (kk : Byte) : Decoded :=
  if kk = 0x07 then .ok (.ldVxDt x)
  else if kk = 0x0A then .ok (.ldVxK x)
  else if kk = 0x15 then .ok (.ldDtVx x)
  else if kk = 0x18 then .ok (.ldStVx x)
  else if kk = 0x1E then .ok (.addIVx x)
  else if kk = 0x29 then .ok (.ldFVx x)
  else if kk = 0x33 then .ok (.ldBVx x)
  else if kk = 0x55 then .ok (.ldMiVx x)
  else if kk = 0x65 then .ok (.ldVxMi x)
  else .rejected .illegalFXkk

/-- The instruction of a word, by top nibble (30_encoding.md R51). -/
def decodeWord (w : Word) : Decoded :=
  match (opField w).toNat with
  | 0x0 => decode0 w
  | 0x1 => .ok (.jp (nnnField w))
  | 0x2 => .ok (.call (nnnField w))
  | 0x3 => .ok (.seVxKk (xField w) (kkField w))
  | 0x4 => .ok (.sneVxKk (xField w) (kkField w))
  | 0x5 => if nField w = 0 then .ok (.seVxVy (xField w) (yField w)) else .rejected .illegal5XYn
  | 0x6 => .ok (.ldVxKk (xField w) (kkField w))
  | 0x7 => .ok (.addVxKk (xField w) (kkField w))
  | 0x8 => decode8 (xField w) (yField w) (nField w)
  | 0x9 => if nField w = 0 then .ok (.sneVxVy (xField w) (yField w)) else .rejected .illegal9XYn
  | 0xA => .ok (.ldI (nnnField w))
  | 0xB => .ok (.jpV0 (nnnField w))
  | 0xC => .ok (.rnd (xField w) (kkField w))
  | 0xD => .ok (.drw (xField w) (yField w) (nField w))
  | 0xE => decodeE (xField w) (kkField w)
  | _ => decodeF (xField w) (kkField w)

/-- The instruction at the front of a list of bytes, high byte first (30_encoding.md R47, 20_memory.md R34). -/
def decodeBytes : List Byte → Decoded
  | hi :: lo :: _ => decodeWord (wordOfBytes hi lo)
  | _ => .rejected .truncated

/-- The two bytes of a word as they stand in memory, high byte first (20_memory.md R34). -/
def bytesOfWord (w : Word) : List Byte := [w.extractLsb' 8 8, w.extractLsb' 0 8]

/-- The instruction the decoder reads from an instruction whose bits are `w`, numbered as opcode_table.json numbers
them: bits above `nbits` are zero, and the word's bytes are laid out high byte first. -/
def decodeTableWord (nbits w : Nat) : Option Instr :=
  (decodeBytes (bytesOfWord (BitVec.ofNat 16 (w % 2 ^ nbits)))).instr?

/-- The word of an instruction (30_encoding.md R48; each pattern as in opcode_table.json). -/
def encode : Instr → Word
  | .cls => 0x00E0
  | .ret => 0x00EE
  | .nop => 0x00FD
  | .sys nnn => 0x0#4 ++ nnn
  | .jp nnn => 0x1#4 ++ nnn
  | .call nnn => 0x2#4 ++ nnn
  | .seVxKk x kk => 0x3#4 ++ x ++ kk
  | .sneVxKk x kk => 0x4#4 ++ x ++ kk
  | .seVxVy x y => 0x5#4 ++ x ++ y ++ 0x0#4
  | .ldVxKk x kk => 0x6#4 ++ x ++ kk
  | .addVxKk x kk => 0x7#4 ++ x ++ kk
  | .ldVxVy x y => 0x8#4 ++ x ++ y ++ 0x0#4
  | .orVxVy x y => 0x8#4 ++ x ++ y ++ 0x1#4
  | .andVxVy x y => 0x8#4 ++ x ++ y ++ 0x2#4
  | .xorVxVy x y => 0x8#4 ++ x ++ y ++ 0x3#4
  | .addVxVy x y => 0x8#4 ++ x ++ y ++ 0x4#4
  | .subVxVy x y => 0x8#4 ++ x ++ y ++ 0x5#4
  | .shrVxVy x y => 0x8#4 ++ x ++ y ++ 0x6#4
  | .subnVxVy x y => 0x8#4 ++ x ++ y ++ 0x7#4
  | .shlVxVy x y => 0x8#4 ++ x ++ y ++ 0xE#4
  | .sneVxVy x y => 0x9#4 ++ x ++ y ++ 0x0#4
  | .ldI nnn => 0xA#4 ++ nnn
  | .jpV0 nnn => 0xB#4 ++ nnn
  | .rnd x kk => 0xC#4 ++ x ++ kk
  | .drw x y n => 0xD#4 ++ x ++ y ++ n
  | .skp x => 0xE#4 ++ x ++ 0x9E#8
  | .sknp x => 0xE#4 ++ x ++ 0xA1#8
  | .ldVxDt x => 0xF#4 ++ x ++ 0x07#8
  | .ldVxK x => 0xF#4 ++ x ++ 0x0A#8
  | .ldDtVx x => 0xF#4 ++ x ++ 0x15#8
  | .ldStVx x => 0xF#4 ++ x ++ 0x18#8
  | .addIVx x => 0xF#4 ++ x ++ 0x1E#8
  | .ldFVx x => 0xF#4 ++ x ++ 0x29#8
  | .ldBVx x => 0xF#4 ++ x ++ 0x33#8
  | .ldMiVx x => 0xF#4 ++ x ++ 0x55#8
  | .ldVxMi x => 0xF#4 ++ x ++ 0x65#8

end Sys2Proof
end

