-- ==== Sys2Proof/Config.lean ====
section
/-! DEFINITION. What is fixed when the machine is constructed (00_scope.md R5), the atomic events of a run
(60_exceptions.md R125, R130), and the free values: opaque constants without a body, so that no proof can
see what they are. -/

namespace Sys2Proof

/-- `MEM_MODEL` (20_memory.md R30): 4096 bytes, or 4095 bytes with no byte behind address 0xFFF. -/
inductive MemModel where
  | m4096
  | m4095
deriving DecidableEq, Repr

/-- `COLLISION_SENSE` (46_display.md R106, 90_conflicts.md C10): which toggle DXYN reports in VF. -/
inductive CollisionSense where
  | offToOn
  | onToOff
deriving DecidableEq, Repr

/-- `FX1E_VF_NO_OVERFLOW` (44_index_memory.md R98): what FX1E does to VF without an overflow. -/
inductive NoOverflow where
  | unchanged
  | zero
deriving DecidableEq, Repr

/-- The construction parameters a step reads (00_scope.md R5), less `QUIRK`, which is a register of its
own (10_state.md R25), and less those that only fill memory (`Config.font`, `Config.initMem`) or are
functions (`Config.rngNext`). Log 1. -/
structure Params where
  memModel : MemModel
  /-- `none` is `STACK_DEPTH = unbounded` (10_state.md R14). -/
  stackDepth : Option Nat
  collisionSense : CollisionSense
  fx1eNoOverflow : NoOverflow
  lockContention : Bool
deriving DecidableEq, Repr

/-- The free inputs of one engine step (00_scope.md section 5, "draw"). Log 4, log 5. -/
structure Draws where
  /-- The run-flag contention draw (40_dispatch.md R61). -/
  runLocked : Bool
  /-- The contention draw of FX07, FX15 and FX18 (47_timers_keys.md R107). -/
  counterLocked : Bool
  /-- Which of the pressed keys FX0A takes (47_timers_keys.md R109). -/
  keyChoice : Nibble
deriving DecidableEq, Repr, Inhabited

/-- One atomic event of a run (60_exceptions.md R125): an engine step, a timer tick or a host operation of
60_exceptions.md R130, each with the draws it makes. -/
inductive Event where
  /-- `single_step()` (40_dispatch.md R58). -/
  | singleStep (draws : Draws)
  /-- One tick of the delay-timer agent (60_exceptions.md R123). -/
  | delayTick
  /-- One tick of the sound-timer agent (60_exceptions.md R124). -/
  | soundTick
  /-- `start()`, with its contention draw (70_reset_and_hazards.md R135). -/
  | start (locked : Bool)
  /-- `stop(…)`, with the trailing-tick draw of each timer agent (70_reset_and_hazards.md R136). -/
  | stop (trailingDelay trailingSound : Bool)
  /-- `load_program(bytes)` (20_memory.md R45). -/
  | loadProgram (bytes : List Byte)
  /-- The hex loader (20_memory.md R46). -/
  | hexLoad (base : Nat) (text : List Char)
  /-- `press(k)` (60_exceptions.md R127). -/
  | press (key : Nibble)
  /-- `release(k)` (60_exceptions.md R127). -/
  | release (key : Nibble)
  /-- `frame_reset()` (60_exceptions.md R127). -/
  | frameReset
  /-- `read_display()` (60_exceptions.md R128). -/
  | readDisplay
  /-- `clear_dirty()` (60_exceptions.md R128). -/
  | clearDirty
deriving DecidableEq, Repr, Inhabited

/-- The parameter values of this hardware (00_scope.md R5). -/
def Config.thisHardware : Params where
  memModel := .m4096
  stackDepth := some 16
  collisionSense := .offToOn
  fx1eNoOverflow := .unchanged
  lockContention := true

/-- FREE VALUE. `QUIRK`, the construction argument: OPEN, both values are legal (00_scope.md R5, decision D44). Log 2. -/
opaque Config.quirk : Bool

/-- FREE VALUE. `RNG_SEED`: OPEN (00_scope.md R5, decision D32). Log 2. -/
opaque Config.rngSeed : Seed

/-- FREE VALUE. `RNG_NEXT`, the generator's next state and the byte it yields: OPEN (45_random.md R103, decision D32). Log 2. -/
opaque Config.rngNext : Seed → Seed × Byte

/-- FREE VALUE. The interleaving of agents (60_exceptions.md R125): the event that happens next once every event
already given to the machine has been performed, numbered by `State.clock`. Log 3. -/
opaque Config.schedule : Nat → Event

/-- `FONT`, the 16 glyphs of 5 bytes (10_state.md R24). PRESUMED: the spec marks the glyph bytes "from general
knowledge, not in source" (decision D7); unsafe. Log 6. -/
def Config.font : List Byte :=
  [0xF0, 0x90, 0x90, 0x90, 0xF0] ++ [0x20, 0x60, 0x20, 0x20, 0x70] ++
  [0xF0, 0x10, 0xF0, 0x80, 0xF0] ++ [0xF0, 0x10, 0xF0, 0x10, 0xF0] ++
  [0x90, 0x90, 0xF0, 0x10, 0x10] ++ [0xF0, 0x80, 0xF0, 0x10, 0xF0] ++
  [0xF0, 0x80, 0xF0, 0x90, 0xF0] ++ [0xF0, 0x10, 0x20, 0x40, 0x40] ++
  [0xF0, 0x90, 0xF0, 0x90, 0xF0] ++ [0xF0, 0x90, 0xF0, 0x10, 0xF0] ++
  [0xF0, 0x90, 0xF0, 0x90, 0x90] ++ [0xE0, 0x90, 0xE0, 0x90, 0xE0] ++
  [0xF0, 0x80, 0x80, 0x80, 0xF0] ++ [0xE0, 0x90, 0x90, 0x90, 0xE0] ++
  [0xF0, 0x80, 0xF0, 0x80, 0xF0] ++ [0xF0, 0x80, 0xF0, 0x80, 0x80]

/-- `INIT_MEM`, the construction value of every byte above the font: 0x00 (00_scope.md R5, decision D6). Log 7. -/
def Config.initMem : Byte := 0x00

end Sys2Proof
end

