-- ==== Sys2Proof/Machine/State.lean ====
section
/-! DEFINITION. The state of the machine as plain data (10_state.md, 20_memory.md, 60_exceptions.md), its value at
construction, and the reasons a step can stop. -/

namespace Sys2Proof.Machine

/-- The state of one key (10_state.md R19). -/
inductive KeyState where
  | pressed
  | released
  | untouched
deriving DecidableEq, Repr

/-- `SOUND_OUT`, and one call on the sound device (10_state.md R22; 60_exceptions.md R124, R129). -/
inductive Sound where
  | playing
  | paused
deriving DecidableEq, Repr

/-- The error kind `single_step` and `start` return (60_exceptions.md R112). `none` is the "not-an-error sentinel";
`unhookedKeyBoard` is reserved and never returned. -/
inductive ErrorKind where
  | none
  | stackUnderflow
  | executionLocked
  | delayTimerLocked
  | soundTimerLocked
  | unhookedKeyBoard
  | invalidInstruction
  | stackOverflow
deriving DecidableEq, Repr

/-- The byte memory as the cells that differ from construction, addresses strictly rising (20_memory.md R28). Log 8. -/
abbrev Memory := List Host.Cell

/-- The frame buffer, `fb[x][y]` for column `x` and row `y` (10_state.md R20). -/
abbrev FrameBuffer := Vector (Vector Bool 32) 64

/-- Everything 10_state.md, 20_memory.md and 60_exceptions.md give the machine, and, last, the model's own fields
(INVENTORY.md lists each with its rule and its value at construction). -/
structure State where
  /-- `V[0x0]` to `V[0xF]`; `V[0xF]` is the flag register (R6, R7). -/
  v : Vector Byte 16
  /-- The index register `I` (R9, R10). -/
  index : Word
  /-- The program counter `PC` (R11, R12). -/
  pc : Word
  /-- The call-return stack `S`, newest entry first (R13, R14; log 16). -/
  stack : List Word
  /-- The delay counter `DT` (R15). -/
  dt : Byte
  /-- The sound counter `ST` (R15). -/
  st : Byte
  /-- The run flag `RUN` (R16). -/
  run : Bool
  /-- The quirk flag `QUIRK` (R17). -/
  quirk : Bool
  /-- `RNG_STATE` (R18). -/
  rngState : Seed
  /-- The keyboard snapshot `KEY` (R19). -/
  keys : Vector KeyState 16
  /-- The frame buffer `FB` (R20). -/
  fb : FrameBuffer
  /-- `DIRTY` (R21). -/
  dirty : Bool
  /-- `SOUND_OUT` (R22). -/
  soundOut : Sound
  /-- The fault latch `FAULTED` (R23). -/
  faulted : Bool
  /-- The byte memory `M` (20_memory.md R28). -/
  mem : Memory
  /-- The delay-timer agent is live (60_exceptions.md R122; log 14). -/
  delayLive : Bool
  /-- The sound-timer agent is live (60_exceptions.md R122; log 14). -/
  soundLive : Bool
  /-- The construction parameters (00_scope.md R5; log 1). -/
  params : Params
  /-- The error kind the latest `single_step` or `start` returned (60_exceptions.md R112; log 9). -/
  result : ErrorKind
  /-- The calls made on the sound device, newest first (60_exceptions.md R129; log 13). -/
  soundCalls : List Sound
  /-- MODEL'S OWN, a free value: the draws of the engine step in progress (log 4). -/
  draws : Draws
  /-- MODEL'S OWN: the events already given to the machine, oldest first (log 3). -/
  inputs : List Event
  /-- MODEL'S OWN: how many events the schedule has supplied (log 3). -/
  clock : Nat
deriving DecidableEq, Repr

/-- Construction, this hardware's power-on reset (10_state.md R27; 70_reset_and_hazards.md R134), for the
construction arguments `QUIRK`, the other parameters and `RNG_SEED`. -/
def State.construct (quirk : Bool) (params : Params) (seed : Seed) : State where
  v := Vector.replicate 16 0
  index := 0x000
  pc := 0x200
  stack := []
  dt := 0
  st := 0
  run := false
  quirk := quirk
  rngState := seed
  keys := Vector.replicate 16 .untouched
  fb := Vector.replicate 64 (Vector.replicate 32 false)
  dirty := false
  soundOut := .paused
  faulted := false
  mem := []
  delayLive := false
  soundLive := false
  params := params
  result := .none
  soundCalls := []
  draws := { runLocked := false, counterLocked := false, keyChoice := 0 }
  inputs := []
  clock := 0

/-- The machine right after construction, with this hardware's parameters and its OPEN arguments free. -/
def State.reset : State := State.construct Config.quirk Config.thisHardware Config.rngSeed

/-- Why a step has no next state: the model faults of 60_exceptions.md R115. -/
inductive Fault where
  /-- An access at masked address 0xFFF under `MEM_MODEL = M4095`, where no byte stands (20_memory.md R30). Raised by
  the engine's fetch, by FX33, FX55, FX65 and DXYN, and by the host loads. Safe: the model stops and claims nothing. -/
  | memPanic
  /-- A `single_step` while `FAULTED` is true, which has no specified outcome (40_dispatch.md R59). Raised by the
  engine before it fetches. Safe: the model stops and claims nothing. -/
  | unspecifiedAfterFatal
deriving DecidableEq, Repr

/-- What the model gives no meaning: the refused host operations of 60_exceptions.md R115. -/
inductive Refusal where
  /-- An instruction without a meaning yet, by its mnemonic. Raised by no arm of `exec`: every one has its meaning. Safe. -/
  | notModelled (mnemonic : String)
  /-- `start` while running (70_reset_and_hazards.md R135, decision D20). Raised by the host operation `start`. Safe. -/
  | startWhileRunning
  /-- `load_program` while running (20_memory.md R45, decision D27). Raised by the host operation. Safe. -/
  | loadWhileRunning
  /-- The hex loader while running (20_memory.md R46, decision D27). Raised by the host operation. Safe. -/
  | hexLoadWhileRunning
deriving DecidableEq, Repr

end Sys2Proof.Machine
end

