-- ==== Sys2Proof/Machine/Ops.lean ====
section
/-! DEFINITION. The named operations over registers, the program counter, the call stack and memory, and the two ways
an engine step returns an error kind to the host. -/

namespace Sys2Proof.Machine

/-- What a step answers. -/
abbrev Answer := Host.Outcome State Fault Refusal

/-! ### Masking and registers -/

/-- `mask12(v) = v & 0xFFF` on a natural of any size (00_scope.md section 5; 20_memory.md R29). -/
def mask12 (n : Nat) : Nat := n % 0x1000

/-- The number of the flag register `VF` (10_state.md R7). -/
def vf : Nibble := 0xF

/-- `V[x]` (10_state.md R6: every 4-bit number names a register). -/
def State.getV (s : State) (x : Nibble) : Byte := s.v[x.toNat]

/-- `V[x] <- b` (10_state.md R6). -/
def State.setV (s : State) (x : Nibble) (b : Byte) : State := { s with v := s.v.set x.toNat b }

/-- `VF <- b` (10_state.md R7). -/
def State.setVF (s : State) (b : Byte) : State := s.setV vf b

/-- `I <- n`, masked to 12 bits (10_state.md R10). -/
def State.setIndex (s : State) (n : Nat) : State := { s with index := BitVec.ofNat 16 (mask12 n) }

/-- `PC <- n`, masked to 12 bits (10_state.md R12). -/
def State.setPc (s : State) (n : Nat) : State := { s with pc := BitVec.ofNat 16 (mask12 n) }

/-- The advance every step makes between fetch and decode: `PC <- mask12(PC + 2)` (40_dispatch.md R63). -/
def State.advance (s : State) : State := s.setPc (s.pc.toNat + 2)

/-- `Skip()`: `PC <- mask12(PC + 2)` on the advanced PC (40_dispatch.md R66). -/
def State.skip (s : State) : State := s.setPc (s.pc.toNat + 2)

/-- FX0A's step back: `PC <- mask12(PC + 0x1000 - 2)` (47_timers_keys.md R109). -/
def State.stepBack (s : State) : State := s.setPc (s.pc.toNat + 0x1000 - 2)

/-! ### The call stack -/

/-- `Push(v)` (10_state.md R13). -/
def State.push (s : State) (v : Word) : State := { s with stack := v :: s.stack }

/-- `Pop()`: the newest entry and the state without it; nothing on an empty stack (10_state.md R13). -/
def State.pop? (s : State) : Option (Word × State) :=
  match s.stack with
  | [] => none
  | v :: rest => some (v, { s with stack := rest })

/-- The stack holds `STACK_DEPTH` entries; never so when it is unbounded (10_state.md R14; 41_flow.md R74). -/
def State.stackFull (s : State) : Bool :=
  match s.params.stackDepth with
  | none => false
  | some depth => s.stack.length == depth

/-! ### The byte memory -/

/-- What an address that nothing has written reads as: the construction contents (10_state.md R24, R27), the font at
0x000 to 0x04F and `INIT_MEM` above. UNSAFE: the font bytes are PRESUMED. Log 6, log 7, log 8. -/
def Memory.initial (a : Nat) : Byte := Config.font.getD a Config.initMem

/-- `M[a]` for a masked address (20_memory.md R28). -/
def Memory.read : Memory → Nat → Byte
  | [], a => Memory.initial a
  | c :: m, a => if c.1 = a then c.2 else Memory.read m a

/-- The memory without a cell for `a`. -/
def Memory.erase (m : Memory) (a : Nat) : Memory := m.filter (fun c => c.1 != a)

/-- The memory with a cell for `a`, before the first cell of a higher address. -/
def Memory.insert : Memory → Nat → Byte → Memory
  | [], a, b => [(a, b)]
  | c :: m, a, b => if a < c.1 then (a, b) :: c :: m else c :: Memory.insert m a b

/-- `M[a] <- b` for a masked address, keeping the canonical form (20_memory.md R32). Log 8. -/
def Memory.write (m : Memory) (a : Nat) (b : Byte) : Memory :=
  if b = Memory.initial a then m.erase a else (m.erase a).insert a b

/-- The canonical form of memory: addresses strictly rising and inside the address space, and no cell equal to what an
unlisted address reads as. -/
abbrev Memory.wf (m : Memory) : Prop :=
  m.Pairwise (fun c d => c.1 < d.1) ∧ ∀ c ∈ m, c.1 < 0x1000 ∧ c.2 ≠ Memory.initial c.1

/-- A byte stands behind the masked address: always under `M4096`, at every address but 0xFFF under `M4095`
(20_memory.md R30). -/
def State.backed (s : State) (a : Nat) : Bool :=
  match s.params.memModel with
  | .m4096 => true
  | .m4095 => mask12 a != 0xFFF

/-- `MemRead(a, 1)`; nothing where no byte stands (20_memory.md R30, R31). -/
def State.memRead (s : State) (a : Nat) : Option Byte :=
  if s.backed a then some (s.mem.read (mask12 a)) else none

/-- `MemWrite(a, 1, b)`; nothing where no byte stands (20_memory.md R30, R32). -/
def State.memWrite (s : State) (a : Nat) (b : Byte) : Option State :=
  if s.backed a then some { s with mem := s.mem.write (mask12 a) b } else none

/-- Read `n` bytes at `a`, `a + 1`, …, in increasing order (20_memory.md R36). -/
def State.loadBytes (s : State) (a : Nat) : Nat → Option (List Byte)
  | 0 => some []
  | n + 1 =>
    match s.memRead a, s.loadBytes (a + 1) n with
    | some b, some bs => some (b :: bs)
    | _, _ => none

/-- Write a list of bytes at `a`, `a + 1`, …, in increasing order (20_memory.md R36, R45). -/
def State.storeBytes (s : State) (a : Nat) : List Byte → Option State
  | [] => some s
  | b :: bs =>
    match s.memWrite a b with
    | some s' => s'.storeBytes (a + 1) bs
    | none => none

/-- `Fetch16(a)`: the byte at `a` is the high byte (20_memory.md R33). -/
def State.fetch16 (s : State) (a : Nat) : Option Word :=
  match s.memRead a, s.memRead (a + 1) with
  | some hi, some lo => some (wordOfBytes hi lo)
  | _, _ => none

/-- The state with a word's two bytes where the next fetch reads them (20_memory.md R33), used to place one instruction
(log 11). -/
def State.placeWord (s : State) (w : Word) : State :=
  match bytesOfWord w with
  | [hi, lo] =>
    let pc := s.pc.toNat
    { s with mem := (s.mem.write (mask12 pc) hi).write (mask12 (pc + 1)) lo }
  | _ => s

/-! ### How an instruction ends -/

/-- The numeric code of an error kind (60_exceptions.md R112, decision D4). -/
def ErrorKind.code : ErrorKind → Nat
  | .none => 0
  | .stackUnderflow => 1
  | .executionLocked => 2
  | .delayTimerLocked => 3
  | .soundTimerLocked => 4
  | .unhookedKeyBoard => 5
  | .invalidInstruction => 6
  | .stackOverflow => 7

/-- The fatal kinds (60_exceptions.md R112, R114). -/
def ErrorKind.fatal : ErrorKind → Bool
  | .stackUnderflow | .invalidInstruction | .stackOverflow => true
  | _ => false

/-- `raise E`, this hardware's way of taking an exception (60_exceptions.md R113, R114, R117): the kind is returned to
the host, a fatal kind sets `FAULTED`, and nothing else of the state changes: no handler, no saved state, no mode. Log 9. -/
def State.raise (s : State) (e : ErrorKind) : Answer :=
  .next { s with result := e, faulted := s.faulted || e.fatal }

/-- The instruction has completed: the step returns `None` (40_dispatch.md R65). -/
def State.complete (s : State) : Answer := .next { s with result := .none }

/-- An instruction that has made its memory accesses: completed, or the model fault MemPanic (20_memory.md R30). -/
def completeAccess : Option State → Answer
  | some s => s.complete
  | none => .fault .memPanic

end Sys2Proof.Machine
end

