-- ==== Sys2Proof/Machine/Operands.lean ====
section
/-! DEFINITION. The operand forms of the instructions (30_encoding.md R48 to R50; 44_index_memory.md R96): each is a
function of the state and the fields of the word. -/

namespace Sys2Proof.Machine

/-- A 12-bit absolute address `NNN` as a target (30_encoding.md R50). -/
def targetOf (nnn : Addr) : Nat := nnn.toNat

/-- The register BNNN adds: V0 under `QUIRK`, else `V[X]` with `X` the high nibble of `NNN` (41_flow.md R75; 30_encoding.md R49). -/
def State.jumpOffset (s : State) (nnn : Addr) : Byte :=
  if s.quirk then s.getV 0 else s.getV (nnn.extractLsb' 8 4)

/-- The value 8XY6 and 8XYE shift: `V[Y]`, copied first, under `QUIRK`, else `V[X]` (43_alu.md R93, R95). -/
def State.shiftSource (s : State) (x y : Nibble) : Byte := if s.quirk then s.getV y else s.getV x

/-- The effective address `I + k` of a data access, before the access masks it (44_index_memory.md R96). -/
def State.effective (s : State) (k : Nat) : Nat := s.index.toNat + k

/-- The low nibble of `V[X]`: a key (42_skip.md R81) or a hex digit (44_index_memory.md R99). -/
def State.lowNibble (s : State) (x : Nibble) : Nibble := (s.getV x).extractLsb' 0 4

/-- `Key(k)` (10_state.md R19). -/
def State.key (s : State) (k : Nibble) : KeyState := s.keys[k.toNat]

/-- Every 4-bit number, in increasing order: the keys, and the register numbers. -/
def nibbles : List Nibble := (List.range 16).map (BitVec.ofNat 4)

/-- The pressed keys (47_timers_keys.md R109). -/
def State.pressedKeys (s : State) : List Nibble := nibbles.filter (fun k => s.key k = .pressed)

/-- The pressed key FX0A takes, a draw among all of them (47_timers_keys.md R109, decision D17); nothing when no key is
pressed. Log 5. -/
def State.chosenKey (s : State) : Option Nibble :=
  match s.pressedKeys with
  | [] => none
  | k :: ks => some ((k :: ks).getD (s.draws.keyChoice.toNat % (k :: ks).length) k)

/-- `V[0]` to `V[X]`, both inclusive (44_index_memory.md R101). -/
def State.registersUpTo (s : State) (x : Nibble) : List Byte :=
  (nibbles.take (x.toNat + 1)).map s.getV

/-- `V[n] <- b0, V[n + 1] <- b1, …` (44_index_memory.md R102). -/
def State.setRegistersFrom (s : State) (n : Nat) : List Byte → State
  | [] => s
  | b :: bs => (s.setV (BitVec.ofNat 4 n) b).setRegistersFrom (n + 1) bs

/-- The post-increment of FX55 and FX65: `I <- mask12(I + X + 1)` under `QUIRK` only (44_index_memory.md R101, R102). -/
def State.advanceIndex (s : State) (x : Nibble) : State :=
  if s.quirk then s.setIndex (s.index.toNat + x.toNat + 1) else s

/-- The three decimal digits of a byte, hundreds first (44_index_memory.md R100). -/
def decimalDigits (b : Byte) : List Byte := [b / 100, (b / 10) % 10, b % 10]

/-- The random byte and the state after `Rnd()` (45_random.md R103). -/
def State.random (s : State) : Byte × State :=
  ((Config.rngNext s.rngState).2, { s with rngState := (Config.rngNext s.rngState).1 })

/-- A contention draw comes out true only where `LOCK_CONTENTION` admits it (40_dispatch.md R61; 47_timers_keys.md R107). -/
def State.contended (s : State) (draw : Bool) : Bool := s.params.lockContention && draw

end Sys2Proof.Machine
end

