-- ==== Sys2Proof/Machine/Flags.lean ====
section
/-! DEFINITION. The values written to `VF` (10_state.md R7). -/

namespace Sys2Proof.Machine

/-- A flag as the byte `VF` takes: 1 or 0 (10_state.md R7). -/
def flagByte (b : Bool) : Byte := if b then 1 else 0

/-- 8XY4: the carry, 1 iff the sum exceeds 255 (43_alu.md R91). -/
def carryFlag (a b : Byte) : Byte := flagByte (decide (255 < a.toNat + b.toNat))

/-- 8XY5 and 8XY7: 1 iff the minuend is strictly greater (43_alu.md R92, R94). -/
def greaterFlag (minuend subtrahend : Byte) : Byte := flagByte (decide (subtrahend.toNat < minuend.toNat))

/-- 8XY6: bit 0 of the value shifted (43_alu.md R93). -/
def lowBitFlag (src : Byte) : Byte := src &&& 1

/-- 8XYE: bit 7 of the value shifted (43_alu.md R95). -/
def highBitFlag (src : Byte) : Byte := src >>> 7

/-- `V[X] <- result` first and `VF <- flag` second, so that `X = 0xF` keeps the flag (43_alu.md R84, decision D12). -/
def State.setResultAndFlag (s : State) (x : Nibble) (result flag : Byte) : State := (s.setV x result).setVF flag

/-- FX1E's flag: with `QUIRK` false, 1 on a sum above 0xFFF, and otherwise what `FX1E_VF_NO_OVERFLOW` says
(44_index_memory.md R98). -/
def State.setIndexOverflowFlag (s : State) (sum : Nat) : State :=
  if s.quirk then s
  else if 0xFFF < sum then s.setVF 1
  else match s.params.fx1eNoOverflow with
    | .zero => s.setVF 0
    | .unchanged => s

/-- One toggle reports a collision (46_display.md R106). -/
def collides (sense : CollisionSense) (old : Bool) : Bool :=
  match sense with
  | .offToOn => !old
  | .onToOff => old

end Sys2Proof.Machine
end

