-- ==== Sys2Proof/Machine/Alu.lean ====
section
/-! DEFINITION. Register loads and arithmetic: 6XKK, 7XKK, 8XY0 to 8XY7, 8XYE (spec/43_alu.md). Every operand is read
before anything is written (R83). -/

namespace Sys2Proof.Machine

/-- `6XKK` LD Vx, kk (R85). -/
def execLdVxKk (x : Nibble) (kk : Byte) (s : State) : Answer := (s.setV x kk).complete

/-- `7XKK` ADD Vx, kk (R86): modulo 256, no carry flag. -/
def execAddVxKk (x : Nibble) (kk : Byte) (s : State) : Answer := (s.setV x (s.getV x + kk)).complete

/-- `8XY0` LD Vx, Vy (R87). -/
def execLdVxVy (x y : Nibble) (s : State) : Answer := (s.setV x (s.getV y)).complete

/-- `8XY1` OR Vx, Vy (R88). -/
def execOrVxVy (x y : Nibble) (s : State) : Answer := (s.setV x (s.getV x ||| s.getV y)).complete

/-- `8XY2` AND Vx, Vy (R89). -/
def execAndVxVy (x y : Nibble) (s : State) : Answer := (s.setV x (s.getV x &&& s.getV y)).complete

/-- `8XY3` XOR Vx, Vy (R90). -/
def execXorVxVy (x y : Nibble) (s : State) : Answer := (s.setV x (s.getV x ^^^ s.getV y)).complete

/-- `8XY4` ADD Vx, Vy with carry (R91). -/
def execAddVxVy (x y : Nibble) (s : State) : Answer :=
  (s.setResultAndFlag x (s.getV x + s.getV y) (carryFlag (s.getV x) (s.getV y))).complete

/-- `8XY5` SUB Vx, Vy: `V[X] - V[Y]` (R92). -/
def execSubVxVy (x y : Nibble) (s : State) : Answer :=
  (s.setResultAndFlag x (s.getV x - s.getV y) (greaterFlag (s.getV x) (s.getV y))).complete

/-- `8XY6` SHR Vx, Vy (R93). -/
def execShrVxVy (x y : Nibble) (s : State) : Answer :=
  (s.setResultAndFlag x (s.shiftSource x y >>> 1) (lowBitFlag (s.shiftSource x y))).complete

/-- `8XY7` SUBN Vx, Vy: `V[Y] - V[X]` (R94). -/
def execSubnVxVy (x y : Nibble) (s : State) : Answer :=
  (s.setResultAndFlag x (s.getV y - s.getV x) (greaterFlag (s.getV y) (s.getV x))).complete

/-- `8XYE` SHL Vx, Vy (R95). -/
def execShlVxVy (x y : Nibble) (s : State) : Answer :=
  (s.setResultAndFlag x (s.shiftSource x y <<< 1) (highBitFlag (s.shiftSource x y))).complete

end Sys2Proof.Machine
end

