-- ==== Sys2Proof/Machine/Display.lean ====
section
/-! DEFINITION. The display instructions 00E0 and DXYN (spec/46_display.md). -/

namespace Sys2Proof.Machine

/-- `FB[x][y]` (10_state.md R20). -/
def pixel (fb : FrameBuffer) (x : Fin 64) (y : Fin 32) : Bool := fb[x][y]

/-- `FB[x][y] <- FB[x][y] ^ 1` (R106). -/
def togglePixel (fb : FrameBuffer) (x : Fin 64) (y : Fin 32) : FrameBuffer :=
  fb.set x.val (fb[x].set y.val (!fb[x][y]))

/-- A frame buffer with every pixel 0 (R105). -/
def blankFrame : FrameBuffer := Vector.replicate 64 (Vector.replicate 32 false)

/-- A draw in progress: the frame buffer and `hit` (R106). -/
structure Canvas where
  fb : FrameBuffer
  hit : Bool

/-- A set sprite bit at `(x, y)`: the toggle, and whether it is a collision (R106). -/
def Canvas.toggle (c : Canvas) (sense : CollisionSense) (x : Fin 64) (y : Fin 32) : Canvas where
  fb := togglePixel c.fb x y
  hit := c.hit || collides sense (pixel c.fb x y)

/-- The column of bit `7 - c` of a sprite byte drawn at column `x0`: columns wrap (R106, decisions D8 and D9). -/
def spriteColumn (x0 c : Nat) : Fin 64 := Fin.ofNat 64 (x0 + c)

/-- One sprite byte at row `y`, bit 7 leftmost (R106). -/
def Canvas.drawByte (sense : CollisionSense) (x0 : Nat) (y : Fin 32) (b : Byte) (canvas : Canvas) : Canvas :=
  (List.range 8).foldl
    (fun acc c => if b.getLsbD (7 - c) then acc.toggle sense (spriteColumn x0 c) y else acc) canvas

/-- Sprite bytes at rows `y`, `y + 1`, …, stopping at row 32 (R106). -/
def Canvas.drawRows (sense : CollisionSense) (x0 : Nat) : Nat → List Byte → Canvas → Canvas
  | _, [], canvas => canvas
  | y, b :: bs, canvas =>
    if h : y < 32 then Canvas.drawRows sense x0 (y + 1) bs (canvas.drawByte sense x0 ⟨y, h⟩ b) else canvas

/-- How many sprite rows are drawn, and so read: none from row 32 on (R106, decision D9). -/
def rowsDrawn (y0 : Nat) (n : Nibble) : Nat := min n.toNat (32 - y0)

/-- The start column `V[X] mod 64` (R106). -/
def State.startColumn (s : State) (x : Nibble) : Nat := (s.getV x).toNat % 64

/-- The start row `V[Y] mod 32` (R106). -/
def State.startRow (s : State) (y : Nibble) : Nat := (s.getV y).toNat % 32

/-- Take a finished draw into the state: `DIRTY <- 1`, and `VF <- hit` last (R106). -/
def State.finishDraw (s : State) (canvas : Canvas) : State :=
  { s with fb := canvas.fb, dirty := true }.setVF (flagByte canvas.hit)

/-- `00E0` CLS (R105). -/
def execCls (s : State) : Answer := { s with fb := blankFrame, dirty := true }.complete

/-- `DXYN` DRW Vx, Vy, n (R106). -/
def execDrw (x y n : Nibble) (s : State) : Answer :=
  completeAccess ((s.loadBytes (s.effective 0) (rowsDrawn (s.startRow y) n)).map (fun rows =>
    s.finishDraw (Canvas.drawRows s.params.collisionSense (s.startColumn x) (s.startRow y) rows
      { fb := s.fb, hit := false })))

end Sys2Proof.Machine
end

