-- ==== Sys2Proof/Machine/Flow.lean ====
section
/-! DEFINITION. Control transfer: 00EE, 00FD, 0NNN, 1NNN, 2NNN, BNNN (spec/41_flow.md). Every meaning runs after the
step's PC advance (R69): `s.pc` is the address of the instruction plus 2. -/

namespace Sys2Proof.Machine

/-- `00EE` RET (R70): pop the PC, or raise StackUnderflow on an empty stack. -/
def execRet (s : State) : Answer :=
  match s.pop? with
  | none => s.raise .stackUnderflow
  | some (v, s') => (s'.setPc v.toNat).complete

/-- `00FD` NOP (R71): the PC keeps its advanced value. -/
def execNop (s : State) : Answer := s.complete

/-- `0NNN` SYS (R72): an absolute jump. -/
def execSys (nnn : Addr) (s : State) : Answer := (s.setPc (targetOf nnn)).complete

/-- `1NNN` JP (R73). -/
def execJp (nnn : Addr) (s : State) : Answer := (s.setPc (targetOf nnn)).complete

/-- `2NNN` CALL (R74): push the advanced PC and jump, or raise StackOverflow on a full stack. -/
def execCall (nnn : Addr) (s : State) : Answer :=
  if s.stackFull then s.raise .stackOverflow
  else ((s.push s.pc).setPc (targetOf nnn)).complete

/-- `BNNN` JP V0 (R75): `NNN` plus V0 under `QUIRK`, else plus `V[X]`. -/
def execJpV0 (nnn : Addr) (s : State) : Answer :=
  (s.setPc (targetOf nnn + (s.jumpOffset nnn).toNat)).complete

end Sys2Proof.Machine
end

