-- ==== Sys2Proof/Machine/IndexMemory.lean ====
section
/-! DEFINITION. The index register and memory transfers: ANNN, FX1E, FX29, FX33, FX55, FX65 (spec/44_index_memory.md). -/

namespace Sys2Proof.Machine

/-- `ANNN` LD I, nnn (R97). -/
def execLdI (nnn : Addr) (s : State) : Answer := (s.setIndex (targetOf nnn)).complete

/-- `FX1E` ADD I, Vx (R98). -/
def execAddIVx (x : Nibble) (s : State) : Answer :=
  let sum := s.index.toNat + (s.getV x).toNat
  ((s.setIndex sum).setIndexOverflowFlag sum).complete

/-- `FX29` LD F, Vx: the glyph of the low nibble, 5 bytes each (R99). -/
def execLdFVx (x : Nibble) (s : State) : Answer := (s.setIndex (5 * (s.lowNibble x).toNat)).complete

/-- `FX33` LD B, Vx (R100). -/
def execLdBVx (x : Nibble) (s : State) : Answer :=
  completeAccess (s.storeBytes (s.effective 0) (decimalDigits (s.getV x)))

/-- `FX55` LD [I], Vx (R101). -/
def execLdMiVx (x : Nibble) (s : State) : Answer :=
  completeAccess ((s.storeBytes (s.effective 0) (s.registersUpTo x)).map (·.advanceIndex x))

/-- `FX65` LD Vx, [I] (R102). -/
def execLdVxMi (x : Nibble) (s : State) : Answer :=
  completeAccess ((s.loadBytes (s.effective 0) (x.toNat + 1)).map
    (fun bytes => (s.setRegistersFrom 0 bytes).advanceIndex x))

end Sys2Proof.Machine
end

