-- ==== Sys2Proof/Machine/Random.lean ====
section
/-! DEFINITION. The random instruction CXKK (spec/45_random.md). -/

namespace Sys2Proof.Machine

/-- `CXKK` RND Vx, kk (R104): one call of `Rnd()` (R103), whatever the mask. -/
def execRnd (x : Nibble) (kk : Byte) (s : State) : Answer := (s.random.2.setV x (s.random.1 &&& kk)).complete

end Sys2Proof.Machine
end

