-- ==== Sys2Proof/Machine/Skip.lean ====
section
/-! DEFINITION. Conditional skips: 3XKK, 4XKK, 5XY0, 9XY0, EX9E, EXA1 (spec/42_skip.md). -/

namespace Sys2Proof.Machine

/-- Skip when the condition holds, and write nothing else (R76). -/
def State.skipIf (s : State) (condition : Bool) : Answer :=
  (if condition then s.skip else s).complete

/-- `3XKK` SE Vx, kk (R77). -/
def execSeVxKk (x : Nibble) (kk : Byte) (s : State) : Answer := s.skipIf (s.getV x == kk)

/-- `4XKK` SNE Vx, kk (R78). -/
def execSneVxKk (x : Nibble) (kk : Byte) (s : State) : Answer := s.skipIf (s.getV x != kk)

/-- `5XY0` SE Vx, Vy (R79). -/
def execSeVxVy (x y : Nibble) (s : State) : Answer := s.skipIf (s.getV x == s.getV y)

/-- `9XY0` SNE Vx, Vy (R80). -/
def execSneVxVy (x y : Nibble) (s : State) : Answer := s.skipIf (s.getV x != s.getV y)

/-- `EX9E` SKP Vx (R81). -/
def execSkp (x : Nibble) (s : State) : Answer := s.skipIf (s.key (s.lowNibble x) == .pressed)

/-- `EXA1` SKNP Vx (R82). -/
def execSknp (x : Nibble) (s : State) : Answer := s.skipIf (s.key (s.lowNibble x) != .pressed)

end Sys2Proof.Machine
end

