-- ==== Sys2Proof/Machine/TimersKeys.lean ====
section
/-! DEFINITION. Timer and key instructions: FX07, FX0A, FX15, FX18 (spec/47_timers_keys.md). -/

namespace Sys2Proof.Machine

/-- One access to a shared counter, or the error of its field when the contention draw comes out true (R107). -/
def State.counterAccess (s : State) (e : ErrorKind) (accessed : State) : Answer :=
  if s.contended s.draws.counterLocked then s.raise e else accessed.complete

/-- `FX07` LD Vx, DT (R108). -/
def execLdVxDt (x : Nibble) (s : State) : Answer := s.counterAccess .delayTimerLocked (s.setV x s.dt)

/-- `FX0A` LD Vx, K (R109): a pressed key, or the PC back on this instruction. -/
def execLdVxK (x : Nibble) (s : State) : Answer :=
  match s.chosenKey with
  | some k => (s.setV x (k.setWidth 8)).complete
  | none => s.stepBack.complete

/-- `FX15` LD DT, Vx (R110). -/
def execLdDtVx (x : Nibble) (s : State) : Answer := s.counterAccess .delayTimerLocked { s with dt := s.getV x }

/-- `FX18` LD ST, Vx (R111). -/
def execLdStVx (x : Nibble) (s : State) : Answer := s.counterAccess .soundTimerLocked { s with st := s.getV x }

end Sys2Proof.Machine
end

