-- ==== Sys2Proof/Machine/Engine.lean ====
section
/-! DEFINITION. The engine's step (spec/40_dispatch.md). -/

namespace Sys2Proof.Machine

/-- The state an instruction's body runs in: the step's draws, and the PC advanced (40_dispatch.md R63). -/
def State.beginBody (s : State) (d : Draws) : State := { s with draws := d }.advance

/-- The fetched word's instruction runs, or an illegal word raises InvalidInstruction (40_dispatch.md R64, R65). -/
def State.runWord (s : State) (w : Word) : Answer :=
  match decodeWord w with
  | .ok i => exec i s
  | .rejected _ => s.raise .invalidInstruction

/-- `single_step()`, its conditions in the order of 60_exceptions.md R116 (40_dispatch.md R58). -/
def State.singleStep (s : State) (d : Draws) : Answer :=
  if s.faulted then .fault .unspecifiedAfterFatal
  else if s.run = false ∨ s.contended d.runLocked then s.raise .executionLocked
  else
    match s.fetch16 s.pc.toNat with
    | none => .fault .memPanic
    | some w => (s.beginBody d).runWord w

end Sys2Proof.Machine
end

