-- ==== Sys2Proof/Machine/Agents.lean ====
section
/-! DEFINITION. The two timer agents (60_exceptions.md R122 to R124). -/

namespace Sys2Proof.Machine

/-- The body of a delay tick, without its run check: one critical section (R123). -/
def State.delayBody (s : State) : State := if s.dt = 0 then s else { s with dt := s.dt - 1 }

/-- One call on the sound device: the output, and the call the host observes (R124, R129). Log 13. -/
def State.callSound (s : State) (call : Sound) : State :=
  { s with soundOut := call, soundCalls := call :: s.soundCalls }

/-- The body of a sound tick, without its run check: test, call, decrement (R124, decision D24). -/
def State.soundBody (s : State) : State :=
  if s.st = 0 then s.callSound .paused
  else { s.callSound .playing with st := s.st - 1 }

/-- One tick of the delay-timer agent (R123). A live agent that finds `RUN` false exits; an agent that is not live makes
no tick (R122), so an event that names it changes nothing (log 3). -/
def State.delayTick (s : State) : State :=
  if s.delayLive then
    if s.run then s.delayBody else { s with delayLive := false }
  else s

/-- One tick of the sound-timer agent (R124), as `State.delayTick`. -/
def State.soundTick (s : State) : State :=
  if s.soundLive then
    if s.run then s.soundBody else { s with soundLive := false }
  else s

end Sys2Proof.Machine
end

