-- ==== Sys2Proof/Machine/HostOps.lean ====
section
/-! DEFINITION. The host operations (60_exceptions.md R127 to R130; 70_reset_and_hazards.md R135, R136; 20_memory.md
R45, R46), less `construct` (`State.construct`) and `single_step` (`State.singleStep`). -/

namespace Sys2Proof.Machine

/-- `start()` (70_reset_and_hazards.md R135): refused while running; on contention `ExecutionLocked` and no change; else
`RUN`, `PC` and the two timer agents. -/
def State.start (s : State) (locked : Bool) : Answer :=
  if s.run then .refused .startWhileRunning
  else if s.contended locked then .next { s with result := .executionLocked }
  else .next { s.setPc 0x200 with run := true, delayLive := true, soundLive := true, result := .none }

/-- The delay-timer agent's end in `stop`: at most one trailing tick, then joined (70_reset_and_hazards.md R136). -/
def State.joinDelay (s : State) (trailing : Bool) : State :=
  { (if s.delayLive && trailing then s.delayBody else s) with delayLive := false }

/-- The sound-timer agent's end in `stop` (70_reset_and_hazards.md R136). -/
def State.joinSound (s : State) (trailing : Bool) : State :=
  { (if s.soundLive && trailing then s.soundBody else s) with soundLive := false }

/-- `stop(…)` (70_reset_and_hazards.md R136). Log 14. -/
def State.stop (s : State) (trailingDelay trailingSound : Bool) : State :=
  { ({ s with run := false }.joinDelay trailingDelay).joinSound trailingSound with faulted := false }

/-- A host load that has made its accesses; a load byte at 0xFFF under `M4095` is MemPanic (20_memory.md R30). -/
def loaded : Option State → Answer
  | some s => .next s
  | none => .fault .memPanic

/-- `load_program(bytes)` at 0x200 (20_memory.md R45): refused while running. -/
def State.loadProgram (s : State) (bytes : List Byte) : Answer :=
  if s.run then .refused .loadWhileRunning else loaded (s.storeBytes 0x200 bytes)

/-- The value of a hex digit, in either case; nothing for every other character (20_memory.md R46). -/
def hexDigit? (c : Char) : Option Nibble :=
  let n := c.toNat
  if 0x30 ≤ n ∧ n ≤ 0x39 then some (BitVec.ofNat 4 (n - 0x30))
  else if 0x41 ≤ n ∧ n ≤ 0x46 then some (BitVec.ofNat 4 (n - 0x41 + 10))
  else if 0x61 ≤ n ∧ n ≤ 0x66 then some (BitVec.ofNat 4 (n - 0x61 + 10))
  else none

/-- Digits in pairs, the first the high nibble; an odd trailing digit is dropped (20_memory.md R46, decision D28). -/
def pairDigits : List Nibble → List Byte
  | hi :: lo :: rest => (hi ++ lo) :: pairDigits rest
  | _ => []

/-- The hex loader's bytes: all characters but hex digits are skipped (20_memory.md R46). -/
def hexBytes (text : List Char) : List Byte := pairDigits (text.filterMap hexDigit?)

/-- The hex loader (20_memory.md R46): refused while running. -/
def State.hexLoad (s : State) (base : Nat) (text : List Char) : Answer :=
  if s.run then .refused .hexLoadWhileRunning else loaded (s.storeBytes base (hexBytes text))

/-- `KEY[k] <- state` (60_exceptions.md R127). -/
def State.setKey (s : State) (k : Nibble) (state : KeyState) : State :=
  { s with keys := s.keys.set k.toNat state }

/-- `press(k)` (60_exceptions.md R127). -/
def State.press (s : State) (k : Nibble) : State := s.setKey k .pressed

/-- `release(k)` (60_exceptions.md R127). -/
def State.release (s : State) (k : Nibble) : State := s.setKey k .released

/-- What `frame_reset()` makes of one key (60_exceptions.md R127). -/
def KeyState.afterFrame : KeyState → KeyState
  | .released => .untouched
  | k => k

/-- `frame_reset()` (60_exceptions.md R127). -/
def State.frameReset (s : State) : State := { s with keys := Vector.ofFn (fun k => s.keys[k].afterFrame) }

/-- What `read_display()` returns; it changes nothing (60_exceptions.md R128). -/
def State.readDisplay (s : State) : FrameBuffer × Bool := (s.fb, s.dirty)

/-- `clear_dirty()` (60_exceptions.md R128). -/
def State.clearDirty (s : State) : State := { s with dirty := false }

end Sys2Proof.Machine
end

