-- ==== Sys2Proof/Machine/Events.lean ====
section
/-! DEFINITION. One atomic event of a run (60_exceptions.md R125), and where the next event comes from. -/

namespace Sys2Proof.Machine

/-- The effect of one event. -/
def perform (e : Event) (s : State) : Answer :=
  match e with
  | .singleStep d => s.singleStep d
  | .delayTick => .next s.delayTick
  | .soundTick => .next s.soundTick
  | .start locked => s.start locked
  | .stop trailingDelay trailingSound => .next (s.stop trailingDelay trailingSound)
  | .loadProgram bytes => s.loadProgram bytes
  | .hexLoad base text => s.hexLoad base text
  | .press k => .next (s.press k)
  | .release k => .next (s.release k)
  | .frameReset => .next s.frameReset
  | .readDisplay => .next s
  | .clearDirty => .next s.clearDirty

/-- The next event and the state without it: the oldest one given to the machine, else the one the schedule names. Log 3. -/
def State.nextEvent (s : State) : Event × State :=
  match s.inputs with
  | e :: rest => (e, { s with inputs := rest })
  | [] => (Config.schedule s.clock, { s with clock := s.clock + 1 })

/-- The event of an engine step in which no draw comes out contended. -/
def quietStep : Event := .singleStep { runLocked := false, counterLocked := false, keyChoice := 0 }

/-- `s` made ready to fetch and run one word in the very next step: the word at the PC, the machine running and not
faulted, and an engine step the next event. Log 11. -/
def State.readyToRun (s : State) (w : Word) : State :=
  { s.placeWord w with run := true, faulted := false, inputs := quietStep :: s.inputs }

end Sys2Proof.Machine
end

