-- ==== Sys2Proof/Machine/Step.lean ====
section
/-! DEFINITION. One step of the whole machine: the next atomic event is performed (60_exceptions.md R125). -/

namespace Sys2Proof.Machine

/-- One atomic event: an engine step, a timer tick or a host operation. -/
def step (s : State) : Host.Outcome State Fault Refusal := perform s.nextEvent.1 s.nextEvent.2

/-- `s` with the instruction whose bits are `w`, numbered as opcode_table.json numbers them, where the next step fetches
it, and with all else that the next step needs to run it (log 11). -/
def State.withFetchWord (s : State) (nbits w : Nat) : State := s.readyToRun (BitVec.ofNat 16 (w % 2 ^ nbits))

end Sys2Proof.Machine
end

