-- ==== Sys2Proof/Safety.lean ====
section
/-! DEFINITION. What counts as a safe run, in the terms the claims use: the invariant of the machine, an engine that may
run an instruction, the end of a run, and the sprite pixels of DXYN. -/

namespace Sys2Proof.Machine

/-- The invariant of the machine: what the spec says of every reachable state. -/
structure State.Inv (s : State) : Prop where
  /-- Memory is in its canonical form (20_memory.md R28; log 8). -/
  mem_wf : s.mem.wf
  /-- `PC[15:12] = 0` (10_state.md R12). -/
  pc_masked : s.pc.toNat < 0x1000
  /-- `I[15:12] = 0` (10_state.md R10). -/
  index_masked : s.index.toNat < 0x1000
  /-- Every return address is below 0x1000 (10_state.md R13). -/
  stack_masked : ∀ a ∈ s.stack, a.toNat < 0x1000
  /-- A bounded stack holds at most `STACK_DEPTH` entries (10_state.md R14). -/
  stack_bounded : ∀ depth, s.params.stackDepth = some depth → s.stack.length ≤ depth
  /-- The delay-timer agent is live exactly while the machine runs (60_exceptions.md R122; 70_reset_and_hazards.md R135, R136). -/
  delay_live : s.delayLive = s.run
  /-- The sound-timer agent is live exactly while the machine runs (60_exceptions.md R122; 70_reset_and_hazards.md R135, R136). -/
  sound_live : s.soundLive = s.run
  /-- A fatal error leaves `RUN` true, and `stop` clears both (60_exceptions.md R114; 70_reset_and_hazards.md R136). -/
  faulted_runs : s.faulted = true → s.run = true
  /-- `SOUND_OUT` is the last call made on the device, Paused before the first (10_state.md R22). -/
  sound_last : s.soundOut = s.soundCalls.headD .paused
  /-- `UnhookedKeyBoard` is never returned (60_exceptions.md R112). -/
  never_unhooked : s.result ≠ .unhookedKeyBoard

/-- An engine step with the draws `d` gets past the conditions that come before the fetch (60_exceptions.md R116). -/
structure State.Ready (s : State) (d : Draws) : Prop where
  not_faulted : s.faulted = false
  running : s.run = true
  not_contended : s.params.lockContention = false ∨ d.runLocked = false

/-- The state in which an instruction's body runs: the draws of the step, and the PC past the instruction
(40_dispatch.md R63). -/
def State.inBody (s : State) (d : Draws) : State :=
  { s with draws := d, pc := BitVec.ofNat 16 ((s.pc.toNat + 2) % 0x1000) }

/-- A `1NNN` whose target is its own address stands at the PC: the next engine step ends the run (70_reset_and_hazards.md R138). -/
def State.AtSelfJump (s : State) : Prop :=
  ∃ nnn : Addr, s.fetch16 s.pc.toNat = some (0x1#4 ++ nnn) ∧ nnn.toNat = s.pc.toNat

/-- The engine step from `s` with the draws `d` ended the run in `t` (70_reset_and_hazards.md R138): this very step executed
a self-jump, or it returned a fatal error. A `single_step` that executes nothing returns neither `None` nor a fatal kind. -/
def EndsRun (s : State) (d : Draws) (t : State) : Prop :=
  s.singleStep d = .next t ∧ ((s.AtSelfJump ∧ t.result = .none) ∨ t.result.fatal = true)

/-- The machine's step from `s` to `t` was an engine step that ended the run (70_reset_and_hazards.md R138): a timer tick or
another host operation never is. -/
def StepEndsRun (s t : State) : Prop := ∃ d, s.nextEvent.1 = .singleStep d ∧ EndsRun s.nextEvent.2 d t

/-- The pixel `(px, py)` lies under a set bit of the sprite that DXYN draws (46_display.md R106): bit `7 - c` of the byte
at `mask12(I + r)`, at column `(V[X] mod 64 + c) mod 64` and row `V[Y] mod 32 + r`. -/
def State.SpriteBit (s : State) (x y n : Nibble) (px : Fin 64) (py : Fin 32) : Prop :=
  ∃ r c, r < n.toNat ∧ c < 8 ∧ py.val = (s.getV y).toNat % 32 + r ∧ px.val = ((s.getV x).toNat % 64 + c) % 64 ∧
    (s.mem.read ((s.index.toNat + r) % 0x1000)).getLsbD (7 - c) = true

end Sys2Proof.Machine
end

