-- ==== Sys2Proof/Certificates/Slice0/Obligations.lean ====
section
/-! DEFINITION. The statements for the provers. Where a clause rests on a decision or a derivation that the spec marks
as its own, or on a choice of this model, the docstring names it. In every frame, `t = { s with … }` says that each
field not named, all of memory included, is unchanged; the clauses on `memRead` say the same byte by byte. -/

open Sys2Proof Sys2Proof.Machine

/-! ### Decoding -/

/-- Words written out from 30_encoding.md R48 and R51, in bytes as they stand in memory, and what they decode to.
`00E1` is a jump by decision D16. -/
def Obligations.SampleWordsDecode : Prop :=
  decodeBytes [0x00, 0xE0] = .ok .cls ∧ decodeBytes [0x00, 0xE1] = .ok (.sys 0x0E1) ∧
  decodeBytes [0x3A, 0x07] = .ok (.seVxKk 0xA 0x07) ∧ decodeBytes [0x81, 0x2E] = .ok (.shlVxVy 0x1 0x2) ∧
  decodeBytes [0xB3, 0x00] = .ok (.jpV0 0x300) ∧ decodeBytes [0xC3, 0x0F] = .ok (.rnd 0x3 0x0F) ∧
  decodeBytes [0xD1, 0x25] = .ok (.drw 0x1 0x2 0x5) ∧ decodeBytes [0xE3, 0xA1] = .ok (.sknp 0x3) ∧
  decodeBytes [0xF5, 0x0A] = .ok (.ldVxK 0x5) ∧ decodeBytes [0xF2, 0x65] = .ok (.ldVxMi 0x2) ∧
  decodeBytes [0x51, 0x21] = .rejected .illegal5XYn

/-- The words that are no instruction are exactly those of the table of 30_encoding.md R53 (the counts of that table,
which the spec marks as derived, are not restated). -/
def Obligations.RejectedWordsAreExactlyTheIllegalOnes : Prop :=
  ∀ w : Word, (∀ i, decodeWord w ≠ .ok i) ↔
    (w.toNat / 4096 = 0x5 ∧ w.toNat % 16 ≠ 0) ∨
    (w.toNat / 4096 = 0x8 ∧ w.toNat % 16 ∈ [0x8, 0x9, 0xA, 0xB, 0xC, 0xD, 0xF]) ∨
    (w.toNat / 4096 = 0x9 ∧ w.toNat % 16 ≠ 0) ∨
    (w.toNat / 4096 = 0xE ∧ w.toNat % 256 ∉ [0x9E, 0xA1]) ∨
    (w.toNat / 4096 = 0xF ∧ w.toNat % 256 ∉ [0x07, 0x0A, 0x15, 0x18, 0x1E, 0x29, 0x33, 0x55, 0x65])

/-- Decode and encode agree on every well-formed instruction, with every operand at every value, as a word, as the two
bytes in memory, and as the opcode table numbers the bits (30_encoding.md R48, R51). -/
def Obligations.DecodeOfEncode : Prop :=
  ∀ i : Instr, i.wellFormed = true →
    decodeWord (encode i) = .ok i ∧ decodeBytes (bytesOfWord (encode i)) = .ok i ∧
    decodeTableWord 16 (encode i).toNat = some i

/-- Every legal word is the word of the instruction it decodes to, and that instruction is well formed: no bit of a
word is dropped (30_encoding.md R51, R52). -/
def Obligations.EncodeOfDecode : Prop :=
  ∀ (w : Word) (i : Instr), decodeWord w = .ok i → i.wellFormed = true ∧ encode i = w

/-! ### The step -/

/-- One step performs one event: the oldest one given to the machine, or, when none is left, the one the schedule names
(60_exceptions.md R125; the form of the interleaving is the model's choice, log 3). -/
def Obligations.StepPerformsTheNextEvent : Prop :=
  ∀ s : State,
    (∀ e rest, s.inputs = e :: rest → step s = perform e { s with inputs := rest }) ∧
    (s.inputs = [] → step s = perform (Config.schedule s.clock) { s with clock := s.clock + 1 })

/-- When the next event is an engine step that may run, and the two bytes at the PC decode to an instruction, the step is
`exec` of it, on the state with the event taken, the draws of the step in place and the PC advanced by 2
(40_dispatch.md R58, R62, R63, R65). -/
def Obligations.StepRunsTheDecodedInstruction : Prop :=
  ∀ (s : State) (d : Draws) (rest : List Event) (hi lo : Byte) (i : Instr),
    s.inputs = .singleStep d :: rest → s.Ready d →
    s.memRead s.pc.toNat = some hi → s.memRead (s.pc.toNat + 1) = some lo → decodeBytes [hi, lo] = .ok i →
    step s = exec i { s with
      inputs := rest, draws := d, pc := BitVec.ofNat 16 ((s.pc.toNat + 2) % 0x1000) }

/-- A `single_step` while stopped returns ExecutionLocked and changes nothing else: no fetch, no PC change. -/
def Obligations.StoppedStepReturnsExecutionLocked : Prop :=
  ∀ (s : State) (d : Draws), s.faulted = false → s.run = false →
    s.singleStep d = .next { s with result := .executionLocked }

/-- The other gates before an instruction (60_exceptions.md R116): while FAULTED, whatever else holds, a `single_step` is the
model fault UnspecifiedAfterFatal, with no next state; on a running machine a run-flag contention draw that comes out true,
where `LOCK_CONTENTION` admits it, returns ExecutionLocked and changes nothing else; and a fetch that misses a byte is the
model fault MemPanic. The latch and the first fault are the spec's decision D19, the draw its decision D18, MemPanic D2. -/
def Obligations.GatedStepsRunNothing : Prop :=
  ∀ (s : State) (d : Draws),
    (s.faulted = true → s.singleStep d = .fault .unspecifiedAfterFatal) ∧
    (s.faulted = false → s.run = true → s.params.lockContention = true → d.runLocked = true →
      s.singleStep d = .next { s with result := .executionLocked }) ∧
    (s.Ready d → s.fetch16 s.pc.toNat = none → s.singleStep d = .fault .memPanic)

/-- An illegal word at the PC raises InvalidInstruction: only the PC advance of the step remains, and FAULTED is set. The
latch FAULTED is the spec's decision D19; `draws` is the model's own field (log 4). -/
def Obligations.IllegalWordRaisesInvalidInstruction : Prop :=
  ∀ (s : State) (d : Draws) (hi lo : Byte), s.Ready d →
    s.memRead s.pc.toNat = some hi → s.memRead (s.pc.toNat + 1) = some lo →
    (∀ i, decodeBytes [hi, lo] ≠ .ok i) →
    s.singleStep d = .next { s with
      draws := d, pc := BitVec.ofNat 16 ((s.pc.toNat + 2) % 0x1000), result := .invalidInstruction, faulted := true }

/-- A self-jump ends the run (70_reset_and_hazards.md R138) and leaves the machine where it was: an engine step at it changes
nothing but the returned kind and the model's own record of the draws. Whatever ended a run, the machine still runs: no word and
no error stops it; and it was an engine step that ran a word, so no tick, no host operation and no step turned away ends one.
The definition of the end of a run is the spec's decision D41. -/
def Obligations.SelfJumpRepeatsForever : Prop :=
  (∀ (s : State) (d : Draws), s.Ready d → s.AtSelfJump →
    s.singleStep d = .next { s with draws := d, result := .none } ∧
    EndsRun s d { s with draws := d, result := .none }) ∧
  (∀ (s : State) (d : Draws) (t : State), EndsRun s d t → s.Ready d ∧ t.run = true) ∧
  (∀ s t : State, StepEndsRun s t → step s = .next t ∧ t.run = true)

/-! ### Errors and stops, over all instructions -/

/-- Whatever instruction raises an error, the error leaves the state as the fetch and PC advance left it: only the
returned kind and FAULTED change, and each kind comes from the instructions 60_exceptions.md R112 names. That the error
test comes before every write is the spec's derivation in R113; the latch FAULTED is its decision D19. -/
def Obligations.RaisedErrorsChangeNothingElse : Prop :=
  ∀ (i : Instr) (s t : State), exec i s = .next t → t.result ≠ .none →
    t = { s with result := t.result, faulted := s.faulted || t.result.fatal } ∧
    ((t.result = .stackUnderflow ∧ i = .ret) ∨
     (t.result = .stackOverflow ∧ ∃ nnn, i = .call nnn) ∨
     (t.result = .delayTimerLocked ∧ ∃ x, i = .ldVxDt x ∨ i = .ldDtVx x) ∨
     (t.result = .soundTimerLocked ∧ ∃ x, i = .ldStVx x))

/-- Under `MEM_MODEL = M4096`, this hardware's, every instruction has a next state from every state: no instruction
stops. The choice of M4096 is the spec's decision D1. -/
def Obligations.EveryInstructionRunsUnderM4096 : Prop :=
  ∀ (i : Instr) (s : State), s.params.memModel = .m4096 → ∃ t, exec i s = .next t

/-- Under `MEM_MODEL = M4095` FX33, FX55, FX65 and DXYN stop with MemPanic exactly when one of their accesses falls on
masked address 0xFFF; DXYN accesses only the rows it draws. MemPanic is the spec's decision D2, the rows its decision D9. -/
def Obligations.MissingByteIsMemPanic : Prop :=
  ∀ (x y n : Nibble) (s : State),
    (exec (.ldBVx x) s = .fault .memPanic ↔
      s.params.memModel = .m4095 ∧ ∃ k, k < 3 ∧ (s.index.toNat + k) % 0x1000 = 0xFFF) ∧
    (exec (.ldMiVx x) s = .fault .memPanic ↔
      s.params.memModel = .m4095 ∧ ∃ k, k ≤ x.toNat ∧ (s.index.toNat + k) % 0x1000 = 0xFFF) ∧
    (exec (.ldVxMi x) s = .fault .memPanic ↔
      s.params.memModel = .m4095 ∧ ∃ k, k ≤ x.toNat ∧ (s.index.toNat + k) % 0x1000 = 0xFFF) ∧
    (exec (.drw x y n) s = .fault .memPanic ↔
      s.params.memModel = .m4095 ∧ ∃ k, k < n.toNat ∧ (s.getV y).toNat % 32 + k < 32 ∧
        (s.index.toNat + k) % 0x1000 = 0xFFF)

/-! ### Control transfer -/

/-- RET (41_flow.md R70) pops the PC; on an empty stack it raises StackUnderflow and changes nothing else. The latch
FAULTED is the spec's decision D19. -/
def Obligations.ReturnPopsOrUnderflows : Prop :=
  ∀ s : State,
    (∀ v rest, s.stack = v :: rest → ∃ t, exec .ret s = .next t ∧
      t.pc.toNat = v.toNat % 0x1000 ∧ t.stack = rest ∧
      t = { s with pc := t.pc, stack := t.stack, result := .none } ∧ ∀ a, t.memRead a = s.memRead a) ∧
    (s.stack = [] → exec .ret s = .next { s with result := .stackUnderflow, faulted := true })

/-- NOP leaves the advanced PC and everything else as they are. -/
def Obligations.NopOnlyAdvances : Prop :=
  decodeWord 0x00FD = .ok .nop ∧
  ∀ s : State, ∃ t, exec .nop s = .next t ∧ t = { s with result := .none } ∧ ∀ a, t.memRead a = s.memRead a

/-- SYS and JP (41_flow.md R72, R73) jump to `NNN`, odd or even, and change nothing else. That every other word of the
top-nibble-0 group is a jump is the spec's decision D16. -/
def Obligations.JumpsGoToTheirTarget : Prop :=
  (∀ nnn : Addr, nnn ≠ 0x0E0 → nnn ≠ 0x0EE → nnn ≠ 0x0FD → decodeWord (0x0#4 ++ nnn) = .ok (.sys nnn)) ∧
  (∀ nnn : Addr, decodeWord (0x1#4 ++ nnn) = .ok (.jp nnn)) ∧
  ∀ (nnn : Addr) (s : State), ∀ i ∈ [Instr.sys nnn, Instr.jp nnn], ∃ t, exec i s = .next t ∧
    t.pc.toNat = nnn.toNat ∧ t = { s with pc := t.pc, result := .none } ∧ ∀ a, t.memRead a = s.memRead a

/-- CALL (41_flow.md R74) pushes the PC, which its step has already advanced, and jumps; on a full stack it raises
StackOverflow and pushes nothing; an unbounded stack is never full. The bound and the error are the spec's decision D3, the
pushed value its decision D34, the latch FAULTED its decision D19. -/
def Obligations.CallPushesOrOverflows : Prop :=
  ∀ (nnn : Addr) (s : State),
    (s.params.stackDepth ≠ some s.stack.length → ∃ t, exec (.call nnn) s = .next t ∧
      t.stack = s.pc :: s.stack ∧ t.pc.toNat = nnn.toNat ∧
      t = { s with pc := t.pc, stack := t.stack, result := .none } ∧ ∀ a, t.memRead a = s.memRead a) ∧
    (s.params.stackDepth = some s.stack.length →
      exec (.call nnn) s = .next { s with result := .stackOverflow, faulted := true })

/-- A CALL and, from any later state with the same stack, a RET restore the PC as it stood when the call's body ran and
the stack from before the call (95_test_vectors.md S3b). That the pushed PC is the call's address plus 2 is the spec's
decision D34. -/
def Obligations.ReturnUndoesCall : Prop :=
  ∀ (nnn : Addr) (s t u : State), s.pc.toNat < 0x1000 → s.params.stackDepth ≠ some s.stack.length →
    exec (.call nnn) s = .next t → u.stack = t.stack →
    exec .ret u = .next { u with pc := s.pc, stack := s.stack, result := .none }

/-- BNNN (41_flow.md R75) jumps to `NNN` plus V0 under QUIRK, and otherwise plus the register named by the high nibble of
`NNN`, masked. That the register's field is the high nibble of `NNN` is 90_conflicts.md C2 (log 10), and the single masked sum
is the spec's derivation in R75. -/
def Obligations.JumpWithOffsetAddsARegister : Prop :=
  (∀ nnn : Addr, decodeWord (0xB#4 ++ nnn) = .ok (.jpV0 nnn)) ∧
  ∀ (nnn : Addr) (s : State), ∃ t, exec (.jpV0 nnn) s = .next t ∧
    t.pc.toNat = (nnn.toNat + (if s.quirk then s.getV 0 else s.getV (BitVec.ofNat 4 (nnn.toNat / 256))).toNat) % 0x1000 ∧
    t = { s with pc := t.pc, result := .none } ∧ ∀ a, t.memRead a = s.memRead a

/-! ### Skips -/

/-- 3XKK and 4XKK skip on equal and on unequal, and write nothing but the PC. -/
def Obligations.ImmediateSkips : Prop :=
  ∀ (x : Nibble) (kk : Byte),
    decodeWord (0x3#4 ++ x ++ kk) = .ok (.seVxKk x kk) ∧ decodeWord (0x4#4 ++ x ++ kk) = .ok (.sneVxKk x kk) ∧
    ∀ s : State,
      (∃ t, exec (.seVxKk x kk) s = .next t ∧
        t.pc.toNat = (if s.getV x = kk then (s.pc.toNat + 2) % 0x1000 else s.pc.toNat) ∧
        t = { s with pc := t.pc, result := .none } ∧ ∀ a, t.memRead a = s.memRead a) ∧
      (∃ t, exec (.sneVxKk x kk) s = .next t ∧
        t.pc.toNat = (if s.getV x = kk then s.pc.toNat else (s.pc.toNat + 2) % 0x1000) ∧
        t = { s with pc := t.pc, result := .none } ∧ ∀ a, t.memRead a = s.memRead a)

/-- 5XY0 and 9XY0 (42_skip.md R79, R80) skip on equal and on unequal registers, and write nothing but the PC; another low nibble is no
instruction. -/
def Obligations.RegisterSkips : Prop :=
  ∀ x y : Nibble,
    decodeWord (0x5#4 ++ x ++ y ++ 0x0#4) = .ok (.seVxVy x y) ∧
    decodeWord (0x9#4 ++ x ++ y ++ 0x0#4) = .ok (.sneVxVy x y) ∧
    (∀ n : Nibble, n ≠ 0 → ∀ i,
      decodeWord (0x5#4 ++ x ++ y ++ n) ≠ .ok i ∧ decodeWord (0x9#4 ++ x ++ y ++ n) ≠ .ok i) ∧
    ∀ s : State,
      (∃ t, exec (.seVxVy x y) s = .next t ∧
        t.pc.toNat = (if s.getV x = s.getV y then (s.pc.toNat + 2) % 0x1000 else s.pc.toNat) ∧
        t = { s with pc := t.pc, result := .none } ∧ ∀ a, t.memRead a = s.memRead a) ∧
      (∃ t, exec (.sneVxVy x y) s = .next t ∧
        t.pc.toNat = (if s.getV x = s.getV y then s.pc.toNat else (s.pc.toNat + 2) % 0x1000) ∧
        t = { s with pc := t.pc, result := .none } ∧ ∀ a, t.memRead a = s.memRead a)

/-- EX9E and EXA1 test the key named by the low nibble of `V[X]`; Released and Untouched both count as not pressed. -/
def Obligations.KeySkips : Prop :=
  ∀ x : Nibble,
    decodeWord (0xE#4 ++ x ++ 0x9E#8) = .ok (.skp x) ∧ decodeWord (0xE#4 ++ x ++ 0xA1#8) = .ok (.sknp x) ∧
    ∀ s : State,
      (∃ t, exec (.skp x) s = .next t ∧
        t.pc.toNat = (if s.key (BitVec.ofNat 4 ((s.getV x).toNat % 16)) = .pressed
          then (s.pc.toNat + 2) % 0x1000 else s.pc.toNat) ∧
        t = { s with pc := t.pc, result := .none } ∧ ∀ a, t.memRead a = s.memRead a) ∧
      (∃ t, exec (.sknp x) s = .next t ∧
        t.pc.toNat = (if s.key (BitVec.ofNat 4 ((s.getV x).toNat % 16)) = .pressed
          then s.pc.toNat else (s.pc.toNat + 2) % 0x1000) ∧
        t = { s with pc := t.pc, result := .none } ∧ ∀ a, t.memRead a = s.memRead a)

/-- A skip taken by the instruction at address `a` leaves the PC at `mask12(a + 4)`, and one not taken at `mask12(a + 2)`,
seen on a whole engine step of each of the six skip instructions with its condition (40_dispatch.md R66, 42_skip.md R76, R77 to
R82; the wrap is the spec's derivation in R66). -/
def Obligations.SkipCountsFromTheInstruction : Prop :=
  ∀ (s : State) (d : Draws) (w : Word) (x y : Nibble) (kk : Byte), s.Ready d → s.fetch16 s.pc.toNat = some w →
    ∀ p ∈ [(Instr.seVxKk x kk, decide (s.getV x = kk)), (Instr.sneVxKk x kk, decide (s.getV x ≠ kk)),
        (Instr.seVxVy x y, decide (s.getV x = s.getV y)), (Instr.sneVxVy x y, decide (s.getV x ≠ s.getV y)),
        (Instr.skp x, decide (s.key (BitVec.ofNat 4 ((s.getV x).toNat % 16)) = .pressed)),
        (Instr.sknp x, decide (s.key (BitVec.ofNat 4 ((s.getV x).toNat % 16)) ≠ .pressed))],
      decodeWord w = .ok p.1 → ∃ t, s.singleStep d = .next t ∧
        t.pc.toNat = (if p.2 = true then (s.pc.toNat + 4) % 0x1000 else (s.pc.toNat + 2) % 0x1000)

/-! ### Register loads and arithmetic -/

/-- 6XKK, 8XY0, 8XY1, 8XY2 and 8XY3 write `V[X]` and nothing else: VF is an ordinary register here. -/
def Obligations.LoadsAndLogicWriteOneRegister : Prop :=
  ∀ (x y : Nibble) (kk : Byte),
    decodeWord (0x6#4 ++ x ++ kk) = .ok (.ldVxKk x kk) ∧
    decodeWord (0x8#4 ++ x ++ y ++ 0x0#4) = .ok (.ldVxVy x y) ∧
    decodeWord (0x8#4 ++ x ++ y ++ 0x1#4) = .ok (.orVxVy x y) ∧
    decodeWord (0x8#4 ++ x ++ y ++ 0x2#4) = .ok (.andVxVy x y) ∧
    decodeWord (0x8#4 ++ x ++ y ++ 0x3#4) = .ok (.xorVxVy x y) ∧
    ∀ s : State, ∀ p ∈ [(Instr.ldVxKk x kk, kk), (Instr.ldVxVy x y, s.getV y),
        (Instr.orVxVy x y, s.getV x ||| s.getV y), (Instr.andVxVy x y, s.getV x &&& s.getV y),
        (Instr.xorVxVy x y, s.getV x ^^^ s.getV y)],
      ∃ t, exec p.1 s = .next t ∧ t.getV x = p.2 ∧ (∀ r, r ≠ x → t.getV r = s.getV r) ∧
        t = { s with v := t.v, result := .none } ∧ ∀ a, t.memRead a = s.memRead a

/-- 7XKK adds modulo 256 and writes no flag. -/
def Obligations.AddImmediateWraps : Prop :=
  ∀ (x : Nibble) (kk : Byte),
    decodeWord (0x7#4 ++ x ++ kk) = .ok (.addVxKk x kk) ∧
    ∀ s : State, ∃ t, exec (.addVxKk x kk) s = .next t ∧
      (t.getV x).toNat = ((s.getV x).toNat + kk.toNat) % 256 ∧ (∀ r, r ≠ x → t.getV r = s.getV r) ∧
      t = { s with v := t.v, result := .none } ∧ ∀ a, t.memRead a = s.memRead a

/-- 8XY4 (43_alu.md R91): the sum modulo 256 and the carry in VF. That VF keeps the carry at `X = 0xF` is the spec's
decision D12. -/
def Obligations.AddSetsCarry : Prop :=
  ∀ (x y : Nibble) (s : State), ∃ t, exec (.addVxVy x y) s = .next t ∧
    (x ≠ 0xF → (t.getV x).toNat = ((s.getV x).toNat + (s.getV y).toNat) % 256) ∧
    (t.getV 0xF).toNat = (if (s.getV x).toNat + (s.getV y).toNat > 255 then 1 else 0) ∧
    (∀ r, r ≠ x → r ≠ 0xF → t.getV r = s.getV r) ∧
    t = { s with v := t.v, result := .none } ∧ ∀ a, t.memRead a = s.memRead a

/-- 8XY5 and 8XY7 (43_alu.md R92, R94): the difference modulo 256, and VF 1 only when the minuend is strictly greater.
VF at `X = 0xF` is the spec's decision D12; 8XY7's 0 for `V[Y] ≤ V[X]` its decision D14. -/
def Obligations.SubtractionsSetStrictFlag : Prop :=
  ∀ (x y : Nibble) (s : State),
    (∃ t, exec (.subVxVy x y) s = .next t ∧
      (x ≠ 0xF → (t.getV x).toNat = ((s.getV x).toNat + 256 - (s.getV y).toNat) % 256) ∧
      (t.getV 0xF).toNat = (if (s.getV x).toNat > (s.getV y).toNat then 1 else 0) ∧
      (∀ r, r ≠ x → r ≠ 0xF → t.getV r = s.getV r) ∧
      t = { s with v := t.v, result := .none } ∧ ∀ a, t.memRead a = s.memRead a) ∧
    (∃ t, exec (.subnVxVy x y) s = .next t ∧
      (x ≠ 0xF → (t.getV x).toNat = ((s.getV y).toNat + 256 - (s.getV x).toNat) % 256) ∧
      (t.getV 0xF).toNat = (if (s.getV y).toNat > (s.getV x).toNat then 1 else 0) ∧
      (∀ r, r ≠ x → r ≠ 0xF → t.getV r = s.getV r) ∧
      t = { s with v := t.v, result := .none } ∧ ∀ a, t.memRead a = s.memRead a)

/-- 8XY6 and 8XYE (43_alu.md R93, R95): one bit right or left of `V[Y]` under QUIRK, else of `V[X]`, and the bit shifted
out in VF. Which value's bit is reported is the spec's decision D13, VF at `X = 0xF` its decision D12. -/
def Obligations.ShiftsMoveOneBit : Prop :=
  ∀ (x y : Nibble) (s : State) (src : Nat), src = (if s.quirk then s.getV y else s.getV x).toNat →
    (∃ t, exec (.shrVxVy x y) s = .next t ∧
      (x ≠ 0xF → (t.getV x).toNat = src / 2) ∧ (t.getV 0xF).toNat = src % 2 ∧
      (∀ r, r ≠ x → r ≠ 0xF → t.getV r = s.getV r) ∧
      t = { s with v := t.v, result := .none } ∧ ∀ a, t.memRead a = s.memRead a) ∧
    (∃ t, exec (.shlVxVy x y) s = .next t ∧
      (x ≠ 0xF → (t.getV x).toNat = (src * 2) % 256) ∧ (t.getV 0xF).toNat = src / 128 ∧
      (∀ r, r ≠ x → r ≠ 0xF → t.getV r = s.getV r) ∧
      t = { s with v := t.v, result := .none } ∧ ∀ a, t.memRead a = s.memRead a)

/-- No instruction changes VF but those 10_state.md R7 names: the flag writers, an instruction that names VF as its
destination, and FX65 with `X = 0xF`. -/
def Obligations.OnlyNamedInstructionsWriteVF : Prop :=
  ∀ (i : Instr) (s t : State), exec i s = .next t → t.getV 0xF ≠ s.getV 0xF →
    (∃ x y, i = .addVxVy x y ∨ i = .subVxVy x y ∨ i = .shrVxVy x y ∨ i = .subnVxVy x y ∨ i = .shlVxVy x y) ∨
    (∃ x y n, i = .drw x y n) ∨
    (∃ x, i = .addIVx x ∧ s.quirk = false) ∨
    (∃ kk y, i = .ldVxKk 0xF kk ∨ i = .addVxKk 0xF kk ∨ i = .rnd 0xF kk ∨ i = .ldVxVy 0xF y ∨ i = .orVxVy 0xF y ∨
      i = .andVxVy 0xF y ∨ i = .xorVxVy 0xF y ∨ i = .ldVxDt 0xF ∨ i = .ldVxK 0xF ∨ i = .ldVxMi 0xF)

/-! ### The index register and memory -/

/-- ANNN loads `NNN`, FX29 loads 5 times the low nibble of `V[X]`, and neither changes anything else. -/
def Obligations.IndexLoads : Prop :=
  (∀ nnn : Addr, decodeWord (0xA#4 ++ nnn) = .ok (.ldI nnn)) ∧
  (∀ x : Nibble, decodeWord (0xF#4 ++ x ++ 0x29#8) = .ok (.ldFVx x)) ∧
  ∀ (nnn : Addr) (x : Nibble) (s : State),
    ∀ p ∈ [(Instr.ldI nnn, nnn.toNat), (Instr.ldFVx x, 5 * ((s.getV x).toNat % 16))],
      ∃ t, exec p.1 s = .next t ∧ t.index.toNat = p.2 ∧
        t = { s with index := t.index, result := .none } ∧ ∀ a, t.memRead a = s.memRead a

/-- FX1E (44_index_memory.md R98): the masked sum in I, and VF 1 on a sum above 0xFFF unless QUIRK. Without an overflow VF
is unchanged, or 0 where the parameter says Zero: the spec's decision D15. -/
def Obligations.AddToIndexReportsOverflow : Prop :=
  ∀ (x : Nibble) (s : State) (sum : Nat), sum = s.index.toNat + (s.getV x).toNat →
    ∃ t, exec (.addIVx x) s = .next t ∧ t.index.toNat = sum % 0x1000 ∧
      t.getV 0xF = (if s.quirk = false ∧ sum > 0xFFF then 1
        else if s.quirk = false ∧ s.params.fx1eNoOverflow = .zero then 0 else s.getV 0xF) ∧
      (∀ r, r ≠ 0xF → t.getV r = s.getV r) ∧
      t = { s with v := t.v, index := t.index, result := .none } ∧ ∀ a, t.memRead a = s.memRead a

/-- A byte write to an address that has a byte: the byte reads back, every other byte reads as before, and nothing but
memory changes, for every address of any size. -/
def Obligations.ByteWriteReadsBack : Prop :=
  ∀ (s : State) (a : Nat) (b : Byte), s.backed a = true →
    ∃ t, s.memWrite a b = some t ∧ t.memRead a = some b ∧
      (∀ a', a' % 0x1000 ≠ a % 0x1000 → t.memRead a' = s.memRead a') ∧
      (∀ a', a' % 0x1000 = a % 0x1000 → t.memRead a' = some b) ∧ t = { s with mem := t.mem }

/-- A fetch is the byte at `a` and, as the low byte, the byte at `mask12(a + 1)`, wrapping at 0xFFF; under M4095 it has
no word where one of the two bytes is missing. The wrap is the spec's derivation in 20_memory.md R33. -/
def Obligations.FetchIsBigEndian : Prop :=
  ∀ (s : State) (a : Nat),
    (∀ hi lo, s.memRead (a % 0x1000) = some hi → s.memRead ((a + 1) % 0x1000) = some lo →
      ∃ w, s.fetch16 a = some w ∧ w.toNat = hi.toNat * 256 + lo.toNat) ∧
    (s.fetch16 a = none ↔
      s.params.memModel = .m4095 ∧ (a % 0x1000 = 0xFFF ∨ (a + 1) % 0x1000 = 0xFFF))

/-- FX33 (44_index_memory.md R100) stores the hundreds, tens and ones of `V[X]` at I, I + 1 and I + 2, masked, and
nothing else, wherever the three bytes exist. The premise on missing bytes is for M4095, the spec's decision D2. -/
def Obligations.DecimalDigitsAreStored : Prop :=
  ∀ (x : Nibble) (s : State), (∀ k, k < 3 → s.backed (s.index.toNat + k) = true) →
    ∃ t, exec (.ldBVx x) s = .next t ∧
      (∃ h m o : Byte, t.memRead (s.effective 0) = some h ∧ t.memRead (s.effective 1) = some m ∧
        t.memRead (s.effective 2) = some o ∧ h.toNat = (s.getV x).toNat / 100 ∧
        m.toNat = (s.getV x).toNat / 10 % 10 ∧ o.toNat = (s.getV x).toNat % 10) ∧
      (∀ a, (∀ k, k < 3 → mask12 a ≠ mask12 (s.effective k)) → t.memRead a = s.memRead a) ∧
      t = { s with mem := t.mem, result := .none }

/-- FX55 (44_index_memory.md R101) stores V0 to VX at I onward, masked, moves I by X + 1 under QUIRK only, and changes
nothing else, wherever the bytes exist. The premise on missing bytes is for M4095, the spec's decision D2. -/
def Obligations.RegistersAreStored : Prop :=
  ∀ (x : Nibble) (s : State), (∀ k, k ≤ x.toNat → s.backed (s.index.toNat + k) = true) →
    ∃ t, exec (.ldMiVx x) s = .next t ∧
      (∀ k, k ≤ x.toNat → t.memRead (s.effective k) = some (s.getV (BitVec.ofNat 4 k))) ∧
      (∀ a, (∀ k, k ≤ x.toNat → mask12 a ≠ mask12 (s.effective k)) → t.memRead a = s.memRead a) ∧
      t.index = (if s.quirk then BitVec.ofNat 16 ((s.index.toNat + x.toNat + 1) % 0x1000) else s.index) ∧
      t = { s with mem := t.mem, index := t.index, result := .none }

/-- FX65 (44_index_memory.md R102) loads V0 to VX from I onward, masked, moves I by X + 1 under QUIRK only, and changes
nothing else, wherever the bytes exist. The premise on missing bytes is for M4095, the spec's decision D2. -/
def Obligations.RegistersAreLoaded : Prop :=
  ∀ (x : Nibble) (s : State), (∀ k, k ≤ x.toNat → s.backed (s.index.toNat + k) = true) →
    ∃ t, exec (.ldVxMi x) s = .next t ∧
      (∀ r : Nibble, r.toNat ≤ x.toNat → some (t.getV r) = s.memRead (s.effective r.toNat)) ∧
      (∀ r : Nibble, x.toNat < r.toNat → t.getV r = s.getV r) ∧
      t.index = (if s.quirk then BitVec.ofNat 16 ((s.index.toNat + x.toNat + 1) % 0x1000) else s.index) ∧
      t = { s with v := t.v, index := t.index, result := .none } ∧ ∀ a, t.memRead a = s.memRead a

/-- FX55 and then, from any state with the same bytes and the index register back where it was, FX65 over the same
registers give the register values back (95_test_vectors.md S5; the conditions are the spec's derivation in R102). -/
def Obligations.StoredRegistersLoadBack : Prop :=
  ∀ (x : Nibble) (s t u : State), exec (.ldMiVx x) s = .next t →
    u.mem = t.mem → u.params = t.params → u.index = s.index →
    ∃ w, exec (.ldVxMi x) u = .next w ∧ ∀ r : Nibble, r.toNat ≤ x.toNat → w.getV r = s.getV r

/-- No instruction but FX33 and FX55 changes a byte of memory (20_memory.md R36). -/
def Obligations.OnlyStoresWriteMemory : Prop :=
  ∀ (i : Instr) (s t : State), exec i s = .next t → t.mem ≠ s.mem → ∃ x, i = .ldBVx x ∨ i = .ldMiVx x

/-! ### Random -/

/-- CXKK (45_random.md R104) calls the generator once, whatever the mask, writes the masked byte to `V[X]`, sets no bit outside
the mask, and changes nothing else. How one call moves RNG_STATE is R103, with the spec's decision D32. -/
def Obligations.RandomByteIsMasked : Prop :=
  ∀ (x : Nibble) (kk : Byte),
    decodeWord (0xC#4 ++ x ++ kk) = .ok (.rnd x kk) ∧
    ∀ s : State, ∃ t, exec (.rnd x kk) s = .next t ∧
      t.getV x = (Config.rngNext s.rngState).2 &&& kk ∧ t.rngState = (Config.rngNext s.rngState).1 ∧
      t.getV x &&& ~~~kk = 0 ∧ (∀ r, r ≠ x → t.getV r = s.getV r) ∧
      t = { s with v := t.v, rngState := t.rngState, result := .none } ∧ ∀ a, t.memRead a = s.memRead a

/-- Whatever event is performed, the generator takes exactly one call when an engine step that may run stands at a CXKK,
whatever its mask, and otherwise keeps its state (10_state.md R18; 45_random.md R103, where "once and never otherwise" is
the spec's decision D32). -/
def Obligations.OnlyRandomAdvancesTheGenerator : Prop :=
  ∀ (e : Event) (s t : State), perform e s = .next t →
    ((∃ d w x kk, e = .singleStep d ∧ s.Ready d ∧ s.fetch16 s.pc.toNat = some w ∧ decodeWord w = .ok (.rnd x kk)) →
      t.rngState = (Config.rngNext s.rngState).1) ∧
    ((¬ ∃ d w x kk, e = .singleStep d ∧ s.Ready d ∧ s.fetch16 s.pc.toNat = some w ∧ decodeWord w = .ok (.rnd x kk)) →
      t.rngState = s.rngState)

/-! ### Display -/

/-- 00E0 (46_display.md R105) clears every pixel, sets DIRTY, and changes nothing else, VF included. That DIRTY is set
whatever changed is the spec's decision D11. -/
def Obligations.ClearBlanksTheDisplay : Prop :=
  ∀ s : State, ∃ t, exec .cls s = .next t ∧ (∀ px py, pixel t.fb px py = false) ∧ t.dirty = true ∧
    t = { s with fb := t.fb, dirty := t.dirty, result := .none } ∧ ∀ a, t.memRead a = s.memRead a

/-- DXYN (46_display.md R106), wherever the bytes of the rows drawn exist: every pixel is toggled exactly where a set sprite bit
lies, DIRTY is set, VF is 1 iff some toggled pixel was off before (on, where the parameter says OnToOff), and nothing else
changes. The bit order is the spec's decision D8, the edges D9, the collision sense D10, DIRTY D11. -/
def Obligations.DrawTogglesSpritePixels : Prop :=
  ∀ (x y n : Nibble) (s : State),
    (∀ k, k < n.toNat → (s.getV y).toNat % 32 + k < 32 → s.backed (s.index.toNat + k) = true) →
    ∃ t, exec (.drw x y n) s = .next t ∧ t.dirty = true ∧
      (∀ px py, s.SpriteBit x y n px py → pixel t.fb px py = !pixel s.fb px py) ∧
      (∀ px py, ¬ s.SpriteBit x y n px py → pixel t.fb px py = pixel s.fb px py) ∧
      ((∃ px py, s.SpriteBit x y n px py ∧
        pixel s.fb px py = decide (s.params.collisionSense = .onToOff)) → t.getV 0xF = 1) ∧
      ((¬ ∃ px py, s.SpriteBit x y n px py ∧
        pixel s.fb px py = decide (s.params.collisionSense = .onToOff)) → t.getV 0xF = 0) ∧
      (∀ r, r ≠ 0xF → t.getV r = s.getV r) ∧
      t = { s with v := t.v, fb := t.fb, dirty := t.dirty, result := .none } ∧ ∀ a, t.memRead a = s.memRead a

/-- Drawing the same sprite twice at the same coordinates restores every pixel, and under OffToOn the second draw's VF is 1
exactly when some set sprite bit falls on a pixel that was on before the first draw (95_test_vectors.md S4; 46_display.md
R106, whose last sentence is marked derived). `X` and `Y` are not 0xF, since the first draw rewrites VF. -/
def Obligations.DrawingTwiceRestoresTheDisplay : Prop :=
  ∀ (x y n : Nibble) (s t u : State), x ≠ 0xF → y ≠ 0xF →
    exec (.drw x y n) s = .next t → exec (.drw x y n) t = .next u →
    u.fb = s.fb ∧ (s.params.collisionSense = .offToOn →
      (u.getV 0xF = 1 ↔ ∃ px py, s.SpriteBit x y n px py ∧ pixel s.fb px py = true))

/-! ### Timers and keys -/

/-- FX07, FX15 and FX18 (47_timers_keys.md R107, R108, R110, R111) make their one counter access when no contention is
drawn, and raise the error of their field, changing nothing else, when it is. The draw is the spec's decision D18. -/
def Obligations.CounterAccessOrLocked : Prop :=
  ∀ (x : Nibble) (s : State),
    ((s.params.lockContention = false ∨ s.draws.counterLocked = false) →
      (∃ t, exec (.ldVxDt x) s = .next t ∧ t.getV x = s.dt ∧ (∀ r, r ≠ x → t.getV r = s.getV r) ∧
        t = { s with v := t.v, result := .none } ∧ ∀ a, t.memRead a = s.memRead a) ∧
      (∃ t, exec (.ldDtVx x) s = .next t ∧ t.dt = s.getV x ∧
        t = { s with dt := t.dt, result := .none } ∧ ∀ a, t.memRead a = s.memRead a) ∧
      (∃ t, exec (.ldStVx x) s = .next t ∧ t.st = s.getV x ∧
        t = { s with st := t.st, result := .none } ∧ ∀ a, t.memRead a = s.memRead a)) ∧
    (s.params.lockContention = true → s.draws.counterLocked = true →
      exec (.ldVxDt x) s = .next { s with result := .delayTimerLocked } ∧
      exec (.ldDtVx x) s = .next { s with result := .delayTimerLocked } ∧
      exec (.ldStVx x) s = .next { s with result := .soundTimerLocked })

/-- FX0A (47_timers_keys.md R109) with a key pressed takes a pressed key into `V[X]` and goes on, and some choice takes any
given pressed key; with none pressed it steps the PC back by 2. The free choice among several keys is the spec's decision
D17; its form is the model's choice (log 5). -/
def Obligations.KeyWaitTakesAPressedKey : Prop :=
  ∀ (x : Nibble) (s : State),
    ((∃ k, s.key k = .pressed) → ∃ t k, exec (.ldVxK x) s = .next t ∧ s.key k = .pressed ∧
      (t.getV x).toNat = k.toNat ∧ (∀ r, r ≠ x → t.getV r = s.getV r) ∧
      t = { s with v := t.v, result := .none } ∧ ∀ a, t.memRead a = s.memRead a) ∧
    (∀ k, s.key k = .pressed → ∃ d t, exec (.ldVxK x) { s with draws := d } = .next t ∧
      (t.getV x).toNat = k.toNat) ∧
    ((∀ k, s.key k ≠ .pressed) → ∃ t, exec (.ldVxK x) s = .next t ∧
      t.pc.toNat = (s.pc.toNat + 0x1000 - 2) % 0x1000 ∧
      t = { s with pc := t.pc, result := .none } ∧ ∀ a, t.memRead a = s.memRead a)

/-- A whole engine step of FX0A with no key pressed leaves the PC on the instruction, wherever it stands, 0xFFE, 0xFFF and
0x000 included (95_test_vectors.md S9, V-T9, V-T10). The premise on the PC is clause `pc_masked` of the invariant. -/
def Obligations.KeyWaitStaysOnItself : Prop :=
  ∀ (s : State) (d : Draws) (x : Nibble), s.Ready d → s.pc.toNat < 0x1000 →
    s.fetch16 s.pc.toNat = some (0xF#4 ++ x ++ 0x0A#8) → (∀ k, s.key k ≠ .pressed) →
    s.singleStep d = .next { s with draws := d, result := .none }

/-- One delay tick of a live agent of a running machine counts DT down to 0 and no further, and changes nothing else
(60_exceptions.md R123; the exact form is the spec's decision D25). On a stopped machine a live agent's tick only ends the agent,
and an agent that is not live makes no tick (R122): an event that names it changes nothing (log 3). -/
def Obligations.DelayTickCountsDown : Prop :=
  (∀ s : State, s.run = true → s.delayLive = true →
    ∃ t, perform .delayTick s = .next t ∧ t.dt.toNat = s.dt.toNat - 1 ∧ t = { s with dt := t.dt }) ∧
  (∀ s : State, s.run = false → s.delayLive = true → perform .delayTick s = .next { s with delayLive := false }) ∧
  (∀ s : State, s.delayLive = false → perform .delayTick s = .next s)

/-- With `ST = n`, exactly `n` sound ticks of a live agent of a running machine call play, counting ST down to 0, and the next
one calls pause (60_exceptions.md R124; 95_test_vectors.md S8). On a stopped machine a live agent's tick only ends the agent, with
no call, and an agent that is not live makes no tick (R122; log 3). The order within a tick is the spec's decision D24, the
record of calls the model's (log 13). -/
def Obligations.SoundPlaysWhileCounting : Prop :=
  (∀ s : State, s.run = true → s.soundLive = true →
    perform .soundTick s = .next s.soundTick ∧
    (∀ k, k ≤ s.st.toNat → State.soundTick^[k] s =
      { s with
        st := BitVec.ofNat 8 (s.st.toNat - k), soundCalls := List.replicate k .playing ++ s.soundCalls,
        soundOut := if k = 0 then s.soundOut else .playing }) ∧
    State.soundTick^[s.st.toNat + 1] s =
      { s with
        st := 0, soundCalls := .paused :: (List.replicate s.st.toNat .playing ++ s.soundCalls), soundOut := .paused }) ∧
  (∀ s : State, s.run = false → s.soundLive = true → perform .soundTick s = .next { s with soundLive := false }) ∧
  (∀ s : State, s.soundLive = false → perform .soundTick s = .next s)

/-- Only a tick of a live agent while RUN is true, the trailing tick of a live agent in a `stop`, and an engine step that may run
can change DT, and a tick only lowers it by one; likewise ST with the sound agent (10_state.md R15, 60_exceptions.md R122). The
engine step runs FX15 or FX18. A sound call is made by the sound agent's tick or trailing tick alone (R124). So from a `stop` to
the next `start` no timer writes a counter and no sound call happens (70_reset_and_hazards.md R136). The trailing tick is the
spec's decision D22, the record of calls the model's (log 13). -/
def Obligations.CountersHaveFewWriters : Prop :=
  ∀ (e : Event) (s t : State), perform e s = .next t →
    (t.dt ≠ s.dt →
      (t.dt.toNat + 1 = s.dt.toNat ∧ s.delayLive = true ∧ ((e = .delayTick ∧ s.run = true) ∨ ∃ b, e = .stop true b)) ∨
      ∃ d w x, e = .singleStep d ∧ s.Ready d ∧ s.fetch16 s.pc.toNat = some w ∧ decodeWord w = .ok (.ldDtVx x)) ∧
    (t.st ≠ s.st →
      (t.st.toNat + 1 = s.st.toNat ∧ s.soundLive = true ∧ ((e = .soundTick ∧ s.run = true) ∨ ∃ b, e = .stop b true)) ∨
      ∃ d w x, e = .singleStep d ∧ s.Ready d ∧ s.fetch16 s.pc.toNat = some w ∧ decodeWord w = .ok (.ldStVx x)) ∧
    (t.soundCalls ≠ s.soundCalls →
      s.soundLive = true ∧ ((e = .soundTick ∧ s.run = true) ∨ ∃ b, e = .stop b true))

/-! ### The host -/

/-- `start` (70_reset_and_hazards.md R135) of a stopped machine sets RUN, resets the PC to 0x200 and launches both timer
agents, and keeps everything else; on contention it returns ExecutionLocked and changes nothing else; a running machine
refuses it. Contention is the spec's decision D18, the refusal D20, what is kept D43. -/
def Obligations.StartResetsOnlyThePc : Prop :=
  ∀ (s : State) (locked : Bool),
    (s.run = false → (s.params.lockContention = false ∨ locked = false) →
      perform (.start locked) s = .next
        { s with run := true, pc := 0x200, delayLive := true, soundLive := true, result := .none }) ∧
    (s.run = false → s.params.lockContention = true → locked = true →
      perform (.start locked) s = .next { s with result := .executionLocked }) ∧
    (s.run = true → perform (.start locked) s = .refused .startWhileRunning)

/-- `stop` (70_reset_and_hazards.md R136) clears RUN and FAULTED and joins both agents, each after at most one trailing tick, and
changes nothing else: DT is lowered, if above 0, only by a live delay agent's trailing tick; and only a live sound agent's
trailing tick makes a sound call, exactly one (60_exceptions.md R124), play with ST lowered if ST is above 0, else pause.
Trailing ticks are the spec's decision D22, a second stop D21, the record of calls the model's (log 13). -/
def Obligations.StopJoinsTheAgents : Prop :=
  ∀ (s : State) (a b : Bool), ∃ t, perform (.stop a b) s = .next t ∧
    t.run = false ∧ t.faulted = false ∧ t.delayLive = false ∧ t.soundLive = false ∧
    t.dt.toNat = (if s.delayLive = true ∧ a = true then s.dt.toNat - 1 else s.dt.toNat) ∧
    t.st.toNat = (if s.soundLive = true ∧ b = true then s.st.toNat - 1 else s.st.toNat) ∧
    t.soundOut = (if s.soundLive = true ∧ b = true then (if s.st.toNat > 0 then .playing else .paused) else s.soundOut) ∧
    t.soundCalls = (if s.soundLive = true ∧ b = true
      then (if s.st.toNat > 0 then .playing else .paused) :: s.soundCalls else s.soundCalls) ∧
    t = { s with
      run := t.run, faulted := t.faulted, delayLive := t.delayLive, soundLive := t.soundLive, dt := t.dt, st := t.st,
      soundOut := t.soundOut, soundCalls := t.soundCalls }

/-- RUN changes only by `start`, to true, and by `stop`, to false: no instruction, error or tick changes it (10_state.md R16). -/
def Obligations.OnlyStartAndStopChangeRun : Prop :=
  ∀ (e : Event) (s t : State), perform e s = .next t → t.run ≠ s.run →
    (t.run = true ∧ ∃ locked, e = .start locked) ∨ (t.run = false ∧ ∃ a b, e = .stop a b)

/-- `load_program` (20_memory.md R45) of a stopped machine puts byte `k` at `mask12(0x200 + k)`, the last byte that falls on
an address winning, and changes nothing else, where all the bytes exist (always under M4096, decision D1), and is MemPanic
where one does not (decision D2); a running machine refuses it (decision D27). The wrap is the spec's derivation. -/
def Obligations.LoadedProgramIsInMemory : Prop :=
  ∀ (s : State) (bytes : List Byte),
    (s.run = true → perform (.loadProgram bytes) s = .refused .loadWhileRunning) ∧
    (s.run = false → (∃ k, k < bytes.length ∧ s.backed (0x200 + k) = false) →
      perform (.loadProgram bytes) s = .fault .memPanic) ∧
    (s.run = false → (∀ k, k < bytes.length → s.backed (0x200 + k) = true) → ∃ t, perform (.loadProgram bytes) s = .next t ∧
      (∀ k (h : k < bytes.length), (∀ j, k < j → j < bytes.length → (0x200 + j) % 0x1000 ≠ (0x200 + k) % 0x1000) →
        t.memRead (0x200 + k) = some bytes[k]) ∧
      (∀ a, (∀ k, k < bytes.length → a % 0x1000 ≠ (0x200 + k) % 0x1000) → t.memRead a = s.memRead a) ∧
      t = { s with mem := t.mem })

/-- The hex loader (20_memory.md R46). The hex digits are 0 to 9, A to F and a to f with the values listed, and no other
character is one. The bytes of a text: characters that are no hex digit do not count, wherever they stand; two hex digits make
one byte, the first the high nibble; a lone last digit makes none (decision D28). A stopped machine puts the bytes at the base
onward, masked, the last byte that falls on an address winning, where they all exist, and else is MemPanic (D2); a running one
refuses (D27). -/
def Obligations.HexTextBecomesBytesInMemory : Prop :=
  (∀ (c : Char) (v : Nibble), hexDigit? c = some v ↔ (c, v) ∈
    [('0', 0x0#4), ('1', 0x1#4), ('2', 0x2#4), ('3', 0x3#4), ('4', 0x4#4), ('5', 0x5#4), ('6', 0x6#4), ('7', 0x7#4)] ++
    [('8', 0x8#4), ('9', 0x9#4), ('A', 0xA#4), ('B', 0xB#4), ('C', 0xC#4), ('D', 0xD#4), ('E', 0xE#4), ('F', 0xF#4)] ++
    [('a', 0xA#4), ('b', 0xB#4), ('c', 0xC#4), ('d', 0xD#4), ('e', 0xE#4), ('f', 0xF#4)]) ∧
  (∀ (t u : List Char) (c : Char), hexDigit? c = none → hexBytes (t ++ c :: u) = hexBytes (t ++ u)) ∧
  (∀ (c d : Char) (hi lo : Nibble) (u : List Char), hexDigit? c = some hi → hexDigit? d = some lo →
    ∃ b : Byte, hexBytes (c :: d :: u) = b :: hexBytes u ∧ b.toNat = hi.toNat * 16 + lo.toNat) ∧
  (∀ c : Char, hexBytes [c] = []) ∧
  (∀ (s : State) (base : Nat) (text : List Char) (bytes : List Byte), bytes = hexBytes text →
    (s.run = true → perform (.hexLoad base text) s = .refused .hexLoadWhileRunning) ∧
    (s.run = false → (∃ k, k < bytes.length ∧ s.backed (base + k) = false) →
      perform (.hexLoad base text) s = .fault .memPanic) ∧
    (s.run = false → (∀ k, k < bytes.length → s.backed (base + k) = true) →
      ∃ t, perform (.hexLoad base text) s = .next t ∧
        (∀ k (h : k < bytes.length), (∀ j, k < j → j < bytes.length → (base + j) % 0x1000 ≠ (base + k) % 0x1000) →
          t.memRead (base + k) = some bytes[k]) ∧
        (∀ a, (∀ k, k < bytes.length → a % 0x1000 ≠ (base + k) % 0x1000) → t.memRead a = s.memRead a) ∧
        t = { s with mem := t.mem }))

/-- `press`, `release` and `frame_reset` (60_exceptions.md R127) write the snapshot and nothing else, running or stopped.
That each falls between engine steps is the spec's decision D29. -/
def Obligations.KeyEventsWriteTheSnapshot : Prop :=
  ∀ (s : State) (k : Nibble),
    (∃ t, perform (.press k) s = .next t ∧ t.key k = .pressed ∧ (∀ j, j ≠ k → t.key j = s.key j) ∧
      t = { s with keys := t.keys }) ∧
    (∃ t, perform (.release k) s = .next t ∧ t.key k = .released ∧ (∀ j, j ≠ k → t.key j = s.key j) ∧
      t = { s with keys := t.keys }) ∧
    (∃ t, perform .frameReset s = .next t ∧
      (∀ j, t.key j = if s.key j = .released then .untouched else s.key j) ∧ t = { s with keys := t.keys })

/-- `read_display` returns the frame buffer and DIRTY and changes nothing, and `clear_dirty` clears DIRTY and changes nothing
else (60_exceptions.md R128; that both fall between engine steps is the spec's decision D36). -/
def Obligations.DisplayReadAndDirtyClear : Prop :=
  ∀ s : State, s.readDisplay = (s.fb, s.dirty) ∧ perform .readDisplay s = .next s ∧
    perform .clearDirty s = .next { s with dirty := false }

/-! ### Construction and invariants -/

/-- The state at construction for all construction arguments (10_state.md R27; 70_reset_and_hazards.md R134). The values of V,
I, DT, ST, the stack, KEY, FB, DIRTY and memory above the font are the spec's decision D6, SOUND_OUT its decision D39, FAULTED D19,
the glyph bytes its decision D7, from general knowledge (log 6). This hardware's parameters (00_scope.md R5) are the spec's
decisions D1, D3, D10, D15 and D18. -/
def Obligations.ConstructionValues : Prop :=
  (∀ (quirk : Bool) (params : Params) (seed : Seed) (s : State), s = State.construct quirk params seed →
    (∀ r, s.getV r = 0) ∧ s.index = 0 ∧ s.pc = 0x200 ∧ s.stack = [] ∧ s.dt = 0 ∧ s.st = 0 ∧ s.run = false ∧
    s.quirk = quirk ∧ s.rngState = seed ∧ (∀ k, s.key k = .untouched) ∧ (∀ px py, pixel s.fb px py = false) ∧
    s.dirty = false ∧ s.soundOut = .paused ∧ s.faulted = false ∧ s.delayLive = false ∧ s.soundLive = false ∧
    s.params = params ∧ (∀ a, 0x50 ≤ a → a < 0x1000 → s.mem.read a = 0) ∧
    (∀ digit row, digit < 16 → row < 5 → s.mem.read (5 * digit + row) = Config.font.getD (5 * digit + row) 0)) ∧
  Config.font.length = 0x50 ∧ (Config.font.drop 0x4B = [0xF0, 0x80, 0xF0, 0x80, 0x80]) ∧
  State.reset = State.construct Config.quirk Config.thisHardware Config.rngSeed ∧
  Config.thisHardware.memModel = .m4096 ∧ Config.thisHardware.stackDepth = some 16 ∧
  Config.thisHardware.collisionSense = .offToOn ∧ Config.thisHardware.fx1eNoOverflow = .unchanged ∧
  Config.thisHardware.lockContention = true

/-- The invariant holds at reset. -/
def Obligations.ResetMeetsTheInvariant : Prop := State.reset.Inv

/-- HEADLINE. Every step, whatever agent or host operation it is, keeps the invariant: memory in its canonical form, PC, I
and every return address masked to 12 bits (10_state.md R10, R12, R13), the call stack within its bound, the timer agents live
exactly while the machine runs, FAULTED only while it runs, SOUND_OUT the last call, and UnhookedKeyBoard never returned. The
bound and the errors are the spec's decisions D3, D4 and D19; the canonical form and the records are the model's (log 8, 9, 13). -/
def Obligations.StepKeepsTheInvariant : Prop :=
  ∀ s t : State, s.Inv → step s = .next t → t.Inv

/-- QUIRK and the construction parameters never change (10_state.md R17; for the other parameters the spec's decision D37;
that they stand in State is the model's choice, log 1). -/
def Obligations.ParametersNeverChange : Prop :=
  ∀ s t : State, step s = .next t → t.quirk = s.quirk ∧ t.params = s.params
end

