-- ==== Sys2Proof/Laws/Decode.lean ====
section
/-! SUPPORT. The fields of a word as numbers, the fields of each operand format (30_encoding.md R48), and a word as the
concatenation of its fields. -/

namespace Sys2Proof

theorem append_toNat {m n : Nat} (a : BitVec m) (b : BitVec n) : (a ++ b).toNat = a.toNat * 2 ^ n + b.toNat := by
  rw [BitVec.toNat_append, ← Nat.shiftLeft_add_eq_or_of_lt b.isLt, Nat.shiftLeft_eq]

/-! ### Fields as numbers (30_encoding.md R49) -/

theorem opField_toNat (w : Word) : (opField w).toNat = w.toNat / 4096 := by
  have := w.isLt
  simp [opField, BitVec.extractLsb'_toNat, Nat.shiftRight_eq_div_pow]; omega

theorem xField_toNat (w : Word) : (xField w).toNat = w.toNat / 256 % 16 := by
  simp [xField, BitVec.extractLsb'_toNat, Nat.shiftRight_eq_div_pow]

theorem yField_toNat (w : Word) : (yField w).toNat = w.toNat / 16 % 16 := by
  simp [yField, BitVec.extractLsb'_toNat, Nat.shiftRight_eq_div_pow]

theorem nField_toNat (w : Word) : (nField w).toNat = w.toNat % 16 := by
  simp [nField, BitVec.extractLsb'_toNat, Nat.shiftRight_eq_div_pow]

theorem kkField_toNat (w : Word) : (kkField w).toNat = w.toNat % 256 := by
  simp [kkField, BitVec.extractLsb'_toNat, Nat.shiftRight_eq_div_pow]

theorem nnnField_toNat (w : Word) : (nnnField w).toNat = w.toNat % 4096 := by
  simp [nnnField, BitVec.extractLsb'_toNat, Nat.shiftRight_eq_div_pow]

theorem wordOfBytes_toNat (hi lo : Byte) : (wordOfBytes hi lo).toNat = hi.toNat * 256 + lo.toNat :=
  append_toNat hi lo

/-! ### Format FNNN -/

@[simp] theorem opField_nnn (o : Nibble) (nnn : Addr) : opField (o ++ nnn) = o := by
  apply BitVec.eq_of_toNat_eq
  rw [opField_toNat, append_toNat]
  omega

@[simp] theorem nnnField_nnn (o : Nibble) (nnn : Addr) : nnnField (o ++ nnn) = nnn := by
  apply BitVec.eq_of_toNat_eq
  rw [nnnField_toNat, append_toNat]
  omega

/-! ### Formats FXKK and FX -/

@[simp] theorem opField_xkk (o x : Nibble) (kk : Byte) : opField (o ++ x ++ kk) = o := by
  apply BitVec.eq_of_toNat_eq
  rw [opField_toNat, append_toNat, append_toNat]
  omega

@[simp] theorem xField_xkk (o x : Nibble) (kk : Byte) : xField (o ++ x ++ kk) = x := by
  apply BitVec.eq_of_toNat_eq
  rw [xField_toNat, append_toNat, append_toNat]
  omega

@[simp] theorem kkField_xkk (o x : Nibble) (kk : Byte) : kkField (o ++ x ++ kk) = kk := by
  apply BitVec.eq_of_toNat_eq
  rw [kkField_toNat, append_toNat, append_toNat]
  omega

/-! ### Formats FXY and FXYN -/

@[simp] theorem opField_xyn (o x y n : Nibble) : opField (o ++ x ++ y ++ n) = o := by
  apply BitVec.eq_of_toNat_eq
  rw [opField_toNat, append_toNat, append_toNat, append_toNat]
  omega

@[simp] theorem xField_xyn (o x y n : Nibble) : xField (o ++ x ++ y ++ n) = x := by
  apply BitVec.eq_of_toNat_eq
  rw [xField_toNat, append_toNat, append_toNat, append_toNat]
  omega

@[simp] theorem yField_xyn (o x y n : Nibble) : yField (o ++ x ++ y ++ n) = y := by
  apply BitVec.eq_of_toNat_eq
  rw [yField_toNat, append_toNat, append_toNat, append_toNat]
  omega

@[simp] theorem nField_xyn (o x y n : Nibble) : nField (o ++ x ++ y ++ n) = n := by
  apply BitVec.eq_of_toNat_eq
  rw [nField_toNat, append_toNat, append_toNat, append_toNat]
  omega

/-! ### A word is its fields -/

theorem word_eq_nnn (w : Word) : opField w ++ nnnField w = w := by
  apply BitVec.eq_of_toNat_eq
  rw [append_toNat, opField_toNat, nnnField_toNat]
  omega

theorem word_eq_xkk (w : Word) : opField w ++ xField w ++ kkField w = w := by
  apply BitVec.eq_of_toNat_eq
  rw [append_toNat, append_toNat, opField_toNat, xField_toNat, kkField_toNat]
  omega

theorem word_eq_xyn (w : Word) : opField w ++ xField w ++ yField w ++ nField w = w := by
  apply BitVec.eq_of_toNat_eq
  rw [append_toNat, append_toNat, append_toNat, opField_toNat, xField_toNat, yField_toNat, nField_toNat]
  omega

/-- Two bytes laid out high byte first give the word back (20_memory.md R34). -/
theorem wordOfBytes_bytesOfWord (w : Word) : wordOfBytes (w.extractLsb' 8 8) (w.extractLsb' 0 8) = w := by
  apply BitVec.eq_of_toNat_eq
  have := w.isLt
  rw [wordOfBytes_toNat]
  simp [BitVec.extractLsb'_toNat, Nat.shiftRight_eq_div_pow]
  omega

theorem decodeBytes_bytesOfWord (w : Word) : decodeBytes (bytesOfWord w) = decodeWord w := by
  rw [bytesOfWord, decodeBytes, wordOfBytes_bytesOfWord]

/-! ### Masks of the opcode table, as concatenations of fields -/

theorem and_F000 (w : Word) : w &&& 0xF000 = opField w ++ 0x0#4 ++ 0x00#8 := by
  ext i hi
  simp only [opField, BitVec.getElem_append, BitVec.getElem_extractLsb']
  interval_cases i <;> simp

theorem and_F00F (w : Word) : w &&& 0xF00F = opField w ++ 0x0#4 ++ 0x0#4 ++ nField w := by
  ext i hi
  simp only [opField, nField, BitVec.getElem_append, BitVec.getElem_extractLsb']
  interval_cases i <;> simp

theorem and_F0FF (w : Word) : w &&& 0xF0FF = opField w ++ 0x0#4 ++ kkField w := by
  ext i hi
  simp only [opField, kkField, BitVec.getElem_append, BitVec.getElem_extractLsb']
  interval_cases i <;> simp

theorem and_FFFF (w : Word) : w &&& 0xFFFF = w := by
  ext i hi
  interval_cases i <;> simp

end Sys2Proof
end

