-- ==== Sys2Proof/Laws/State.lean ====
section
/-! SUPPORT. One lemma per field per update of State, true by rfl, and the updates that are another update under a
second name. -/

namespace Sys2Proof.Machine

variable (s : State)

/-! ### `State.setV` -/

@[simp] theorem State.setV_v (x : Nibble) (b : Byte) : (s.setV x b).v = s.v.set x.toNat b := rfl
@[simp] theorem State.setV_index (x : Nibble) (b : Byte) : (s.setV x b).index = s.index := rfl
@[simp] theorem State.setV_pc (x : Nibble) (b : Byte) : (s.setV x b).pc = s.pc := rfl
@[simp] theorem State.setV_stack (x : Nibble) (b : Byte) : (s.setV x b).stack = s.stack := rfl
@[simp] theorem State.setV_dt (x : Nibble) (b : Byte) : (s.setV x b).dt = s.dt := rfl
@[simp] theorem State.setV_st (x : Nibble) (b : Byte) : (s.setV x b).st = s.st := rfl
@[simp] theorem State.setV_run (x : Nibble) (b : Byte) : (s.setV x b).run = s.run := rfl
@[simp] theorem State.setV_quirk (x : Nibble) (b : Byte) : (s.setV x b).quirk = s.quirk := rfl
@[simp] theorem State.setV_rngState (x : Nibble) (b : Byte) : (s.setV x b).rngState = s.rngState := rfl
@[simp] theorem State.setV_keys (x : Nibble) (b : Byte) : (s.setV x b).keys = s.keys := rfl
@[simp] theorem State.setV_fb (x : Nibble) (b : Byte) : (s.setV x b).fb = s.fb := rfl
@[simp] theorem State.setV_dirty (x : Nibble) (b : Byte) : (s.setV x b).dirty = s.dirty := rfl
@[simp] theorem State.setV_soundOut (x : Nibble) (b : Byte) : (s.setV x b).soundOut = s.soundOut := rfl
@[simp] theorem State.setV_faulted (x : Nibble) (b : Byte) : (s.setV x b).faulted = s.faulted := rfl
@[simp] theorem State.setV_mem (x : Nibble) (b : Byte) : (s.setV x b).mem = s.mem := rfl
@[simp] theorem State.setV_delayLive (x : Nibble) (b : Byte) : (s.setV x b).delayLive = s.delayLive := rfl
@[simp] theorem State.setV_soundLive (x : Nibble) (b : Byte) : (s.setV x b).soundLive = s.soundLive := rfl
@[simp] theorem State.setV_params (x : Nibble) (b : Byte) : (s.setV x b).params = s.params := rfl
@[simp] theorem State.setV_result (x : Nibble) (b : Byte) : (s.setV x b).result = s.result := rfl
@[simp] theorem State.setV_soundCalls (x : Nibble) (b : Byte) : (s.setV x b).soundCalls = s.soundCalls := rfl
@[simp] theorem State.setV_draws (x : Nibble) (b : Byte) : (s.setV x b).draws = s.draws := rfl
@[simp] theorem State.setV_inputs (x : Nibble) (b : Byte) : (s.setV x b).inputs = s.inputs := rfl
@[simp] theorem State.setV_clock (x : Nibble) (b : Byte) : (s.setV x b).clock = s.clock := rfl

/-! ### `State.setIndex` -/

@[simp] theorem State.setIndex_v (n : Nat) : (s.setIndex n).v = s.v := rfl
@[simp] theorem State.setIndex_index (n : Nat) : (s.setIndex n).index = BitVec.ofNat 16 (mask12 n) := rfl
@[simp] theorem State.setIndex_pc (n : Nat) : (s.setIndex n).pc = s.pc := rfl
@[simp] theorem State.setIndex_stack (n : Nat) : (s.setIndex n).stack = s.stack := rfl
@[simp] theorem State.setIndex_dt (n : Nat) : (s.setIndex n).dt = s.dt := rfl
@[simp] theorem State.setIndex_st (n : Nat) : (s.setIndex n).st = s.st := rfl
@[simp] theorem State.setIndex_run (n : Nat) : (s.setIndex n).run = s.run := rfl
@[simp] theorem State.setIndex_quirk (n : Nat) : (s.setIndex n).quirk = s.quirk := rfl
@[simp] theorem State.setIndex_rngState (n : Nat) : (s.setIndex n).rngState = s.rngState := rfl
@[simp] theorem State.setIndex_keys (n : Nat) : (s.setIndex n).keys = s.keys := rfl
@[simp] theorem State.setIndex_fb (n : Nat) : (s.setIndex n).fb = s.fb := rfl
@[simp] theorem State.setIndex_dirty (n : Nat) : (s.setIndex n).dirty = s.dirty := rfl
@[simp] theorem State.setIndex_soundOut (n : Nat) : (s.setIndex n).soundOut = s.soundOut := rfl
@[simp] theorem State.setIndex_faulted (n : Nat) : (s.setIndex n).faulted = s.faulted := rfl
@[simp] theorem State.setIndex_mem (n : Nat) : (s.setIndex n).mem = s.mem := rfl
@[simp] theorem State.setIndex_delayLive (n : Nat) : (s.setIndex n).delayLive = s.delayLive := rfl
@[simp] theorem State.setIndex_soundLive (n : Nat) : (s.setIndex n).soundLive = s.soundLive := rfl
@[simp] theorem State.setIndex_params (n : Nat) : (s.setIndex n).params = s.params := rfl
@[simp] theorem State.setIndex_result (n : Nat) : (s.setIndex n).result = s.result := rfl
@[simp] theorem State.setIndex_soundCalls (n : Nat) : (s.setIndex n).soundCalls = s.soundCalls := rfl
@[simp] theorem State.setIndex_draws (n : Nat) : (s.setIndex n).draws = s.draws := rfl
@[simp] theorem State.setIndex_inputs (n : Nat) : (s.setIndex n).inputs = s.inputs := rfl
@[simp] theorem State.setIndex_clock (n : Nat) : (s.setIndex n).clock = s.clock := rfl

/-! ### `State.setPc` -/

@[simp] theorem State.setPc_v (n : Nat) : (s.setPc n).v = s.v := rfl
@[simp] theorem State.setPc_index (n : Nat) : (s.setPc n).index = s.index := rfl
@[simp] theorem State.setPc_pc (n : Nat) : (s.setPc n).pc = BitVec.ofNat 16 (mask12 n) := rfl
@[simp] theorem State.setPc_stack (n : Nat) : (s.setPc n).stack = s.stack := rfl
@[simp] theorem State.setPc_dt (n : Nat) : (s.setPc n).dt = s.dt := rfl
@[simp] theorem State.setPc_st (n : Nat) : (s.setPc n).st = s.st := rfl
@[simp] theorem State.setPc_run (n : Nat) : (s.setPc n).run = s.run := rfl
@[simp] theorem State.setPc_quirk (n : Nat) : (s.setPc n).quirk = s.quirk := rfl
@[simp] theorem State.setPc_rngState (n : Nat) : (s.setPc n).rngState = s.rngState := rfl
@[simp] theorem State.setPc_keys (n : Nat) : (s.setPc n).keys = s.keys := rfl
@[simp] theorem State.setPc_fb (n : Nat) : (s.setPc n).fb = s.fb := rfl
@[simp] theorem State.setPc_dirty (n : Nat) : (s.setPc n).dirty = s.dirty := rfl
@[simp] theorem State.setPc_soundOut (n : Nat) : (s.setPc n).soundOut = s.soundOut := rfl
@[simp] theorem State.setPc_faulted (n : Nat) : (s.setPc n).faulted = s.faulted := rfl
@[simp] theorem State.setPc_mem (n : Nat) : (s.setPc n).mem = s.mem := rfl
@[simp] theorem State.setPc_delayLive (n : Nat) : (s.setPc n).delayLive = s.delayLive := rfl
@[simp] theorem State.setPc_soundLive (n : Nat) : (s.setPc n).soundLive = s.soundLive := rfl
@[simp] theorem State.setPc_params (n : Nat) : (s.setPc n).params = s.params := rfl
@[simp] theorem State.setPc_result (n : Nat) : (s.setPc n).result = s.result := rfl
@[simp] theorem State.setPc_soundCalls (n : Nat) : (s.setPc n).soundCalls = s.soundCalls := rfl
@[simp] theorem State.setPc_draws (n : Nat) : (s.setPc n).draws = s.draws := rfl
@[simp] theorem State.setPc_inputs (n : Nat) : (s.setPc n).inputs = s.inputs := rfl
@[simp] theorem State.setPc_clock (n : Nat) : (s.setPc n).clock = s.clock := rfl

/-! ### `State.push` -/

@[simp] theorem State.push_v (w : Word) : (s.push w).v = s.v := rfl
@[simp] theorem State.push_index (w : Word) : (s.push w).index = s.index := rfl
@[simp] theorem State.push_pc (w : Word) : (s.push w).pc = s.pc := rfl
@[simp] theorem State.push_stack (w : Word) : (s.push w).stack = w :: s.stack := rfl
@[simp] theorem State.push_dt (w : Word) : (s.push w).dt = s.dt := rfl
@[simp] theorem State.push_st (w : Word) : (s.push w).st = s.st := rfl
@[simp] theorem State.push_run (w : Word) : (s.push w).run = s.run := rfl
@[simp] theorem State.push_quirk (w : Word) : (s.push w).quirk = s.quirk := rfl
@[simp] theorem State.push_rngState (w : Word) : (s.push w).rngState = s.rngState := rfl
@[simp] theorem State.push_keys (w : Word) : (s.push w).keys = s.keys := rfl
@[simp] theorem State.push_fb (w : Word) : (s.push w).fb = s.fb := rfl
@[simp] theorem State.push_dirty (w : Word) : (s.push w).dirty = s.dirty := rfl
@[simp] theorem State.push_soundOut (w : Word) : (s.push w).soundOut = s.soundOut := rfl
@[simp] theorem State.push_faulted (w : Word) : (s.push w).faulted = s.faulted := rfl
@[simp] theorem State.push_mem (w : Word) : (s.push w).mem = s.mem := rfl
@[simp] theorem State.push_delayLive (w : Word) : (s.push w).delayLive = s.delayLive := rfl
@[simp] theorem State.push_soundLive (w : Word) : (s.push w).soundLive = s.soundLive := rfl
@[simp] theorem State.push_params (w : Word) : (s.push w).params = s.params := rfl
@[simp] theorem State.push_result (w : Word) : (s.push w).result = s.result := rfl
@[simp] theorem State.push_soundCalls (w : Word) : (s.push w).soundCalls = s.soundCalls := rfl
@[simp] theorem State.push_draws (w : Word) : (s.push w).draws = s.draws := rfl
@[simp] theorem State.push_inputs (w : Word) : (s.push w).inputs = s.inputs := rfl
@[simp] theorem State.push_clock (w : Word) : (s.push w).clock = s.clock := rfl

/-! ### `State.setKey` -/

@[simp] theorem State.setKey_v (k : Nibble) (c : KeyState) : (s.setKey k c).v = s.v := rfl
@[simp] theorem State.setKey_index (k : Nibble) (c : KeyState) : (s.setKey k c).index = s.index := rfl
@[simp] theorem State.setKey_pc (k : Nibble) (c : KeyState) : (s.setKey k c).pc = s.pc := rfl
@[simp] theorem State.setKey_stack (k : Nibble) (c : KeyState) : (s.setKey k c).stack = s.stack := rfl
@[simp] theorem State.setKey_dt (k : Nibble) (c : KeyState) : (s.setKey k c).dt = s.dt := rfl
@[simp] theorem State.setKey_st (k : Nibble) (c : KeyState) : (s.setKey k c).st = s.st := rfl
@[simp] theorem State.setKey_run (k : Nibble) (c : KeyState) : (s.setKey k c).run = s.run := rfl
@[simp] theorem State.setKey_quirk (k : Nibble) (c : KeyState) : (s.setKey k c).quirk = s.quirk := rfl
@[simp] theorem State.setKey_rngState (k : Nibble) (c : KeyState) : (s.setKey k c).rngState = s.rngState := rfl
@[simp] theorem State.setKey_keys (k : Nibble) (c : KeyState) : (s.setKey k c).keys = s.keys.set k.toNat c := rfl
@[simp] theorem State.setKey_fb (k : Nibble) (c : KeyState) : (s.setKey k c).fb = s.fb := rfl
@[simp] theorem State.setKey_dirty (k : Nibble) (c : KeyState) : (s.setKey k c).dirty = s.dirty := rfl
@[simp] theorem State.setKey_soundOut (k : Nibble) (c : KeyState) : (s.setKey k c).soundOut = s.soundOut := rfl
@[simp] theorem State.setKey_faulted (k : Nibble) (c : KeyState) : (s.setKey k c).faulted = s.faulted := rfl
@[simp] theorem State.setKey_mem (k : Nibble) (c : KeyState) : (s.setKey k c).mem = s.mem := rfl
@[simp] theorem State.setKey_delayLive (k : Nibble) (c : KeyState) : (s.setKey k c).delayLive = s.delayLive := rfl
@[simp] theorem State.setKey_soundLive (k : Nibble) (c : KeyState) : (s.setKey k c).soundLive = s.soundLive := rfl
@[simp] theorem State.setKey_params (k : Nibble) (c : KeyState) : (s.setKey k c).params = s.params := rfl
@[simp] theorem State.setKey_result (k : Nibble) (c : KeyState) : (s.setKey k c).result = s.result := rfl
@[simp] theorem State.setKey_soundCalls (k : Nibble) (c : KeyState) : (s.setKey k c).soundCalls = s.soundCalls := rfl
@[simp] theorem State.setKey_draws (k : Nibble) (c : KeyState) : (s.setKey k c).draws = s.draws := rfl
@[simp] theorem State.setKey_inputs (k : Nibble) (c : KeyState) : (s.setKey k c).inputs = s.inputs := rfl
@[simp] theorem State.setKey_clock (k : Nibble) (c : KeyState) : (s.setKey k c).clock = s.clock := rfl

/-! ### Second names -/

@[simp] theorem State.setVF_eq (b : Byte) : s.setVF b = s.setV vf b := rfl
@[simp] theorem State.advance_eq : s.advance = s.setPc (s.pc.toNat + 2) := rfl
@[simp] theorem State.skip_eq : s.skip = s.setPc (s.pc.toNat + 2) := rfl
@[simp] theorem State.stepBack_eq : s.stepBack = s.setPc (s.pc.toNat + 0x1000 - 2) := rfl
@[simp] theorem State.setResultAndFlag_eq (x : Nibble) (r f : Byte) :
    s.setResultAndFlag x r f = (s.setV x r).setV vf f := rfl
@[simp] theorem State.effective_eq (k : Nat) : s.effective k = s.index.toNat + k := rfl
@[simp] theorem State.complete_eq : s.complete = .next { s with result := .none } := rfl
@[simp] theorem State.raise_eq (e : ErrorKind) :
    s.raise e = .next { s with result := e, faulted := s.faulted || e.fatal } := rfl
@[simp] theorem completeAccess_some : completeAccess (some s) = .next { s with result := .none } := rfl
@[simp] theorem completeAccess_none : completeAccess none = .fault .memPanic := rfl
@[simp] theorem targetOf_eq (nnn : Addr) : targetOf nnn = nnn.toNat := rfl

end Sys2Proof.Machine
end

