-- ==== Sys2Proof/Laws/Registers.lean ====
section
/-! SUPPORT. Masking, general registers, the call stack, and the operand forms that read or write them. -/

namespace Sys2Proof.Machine

/-! ### Masking -/

theorem mask12_lt (n : Nat) : mask12 n < 0x1000 := Nat.mod_lt _ (by decide)

theorem mask12_of_lt {n : Nat} (h : n < 0x1000) : mask12 n = n := Nat.mod_eq_of_lt h

/-- The mask is the spec's `& 0xFFF` (00_scope.md section 5). -/
theorem mask12_eq_and (n : Nat) : mask12 n = n &&& 0xFFF := (Nat.and_two_pow_sub_one_eq_mod n 12).symm

/-- A masked number is kept whole by a 16-bit register. -/
theorem ofNat_mask12_toNat (n : Nat) : (BitVec.ofNat 16 (mask12 n)).toNat = n % 0x1000 := by
  have := mask12_lt n
  rw [BitVec.toNat_ofNat, Nat.mod_eq_of_lt (by omega)]
  rfl

/-- Every address with the 12 low bits of `a + k` for a `k` below 0x1000 names one `k`. -/
theorem mask12_add_inj {a j k : Nat} (hj : j < 0x1000) (hk : k < 0x1000) (h : mask12 (a + j) = mask12 (a + k)) :
    j = k := by
  unfold mask12 at h
  omega

/-! ### General registers -/

theorem State.getV_setV (s : State) (x r : Nibble) (b : Byte) :
    (s.setV x b).getV r = if r = x then b else s.getV r := by
  by_cases h : r = x
  · subst h; simp [State.getV, State.setV]
  · have hn : x.toNat ≠ r.toNat := fun e => h (BitVec.eq_of_toNat_eq e.symm)
    simp [State.getV, State.setV, hn, h]

@[simp] theorem State.getV_setV_same (s : State) (x : Nibble) (b : Byte) : (s.setV x b).getV x = b := by
  simp [State.getV_setV]

theorem State.getV_setV_ne (s : State) {x r : Nibble} (b : Byte) (h : r ≠ x) : (s.setV x b).getV r = s.getV r := by
  simp [State.getV_setV, h]

/-- `getV` reads nothing but the register file. -/
theorem State.getV_congr {s t : State} (h : t.v = s.v) (r : Nibble) : t.getV r = s.getV r := by
  simp [State.getV, h]

@[simp] theorem State.getV_setIndex (s : State) (n : Nat) (r : Nibble) : (s.setIndex n).getV r = s.getV r := rfl
@[simp] theorem State.getV_setPc (s : State) (n : Nat) (r : Nibble) : (s.setPc n).getV r = s.getV r := rfl
@[simp] theorem State.getV_push (s : State) (w : Word) (r : Nibble) : (s.push w).getV r = s.getV r := rfl

@[simp] theorem State.getV_result (s : State) (e : ErrorKind) (r : Nibble) :
    ({ s with result := e } : State).getV r = s.getV r := rfl

/-- A PC write as a number (10_state.md R12). -/
theorem State.setPc_toNat (s : State) (n : Nat) : (s.setPc n).pc.toNat = n % 0x1000 := ofNat_mask12_toNat n

/-- An index write as a number (10_state.md R10). -/
theorem State.setIndex_toNat (s : State) (n : Nat) : (s.setIndex n).index.toNat = n % 0x1000 := ofNat_mask12_toNat n

/-- Only the register file is written by `setV`. -/
theorem State.setV_frame (s : State) (x : Nibble) (b : Byte) : s.setV x b = { s with v := (s.setV x b).v } := rfl

/-! ### The call stack -/

/-- All that `Pop()` can do (10_state.md R13). -/
theorem State.pop?_spec (s : State) :
    (s.stack = [] ∧ s.pop? = none) ∨
    (∃ v rest, s.stack = v :: rest ∧ s.pop? = some (v, { s with stack := rest })) := by
  unfold State.pop?
  cases h : s.stack with
  | nil => exact .inl ⟨rfl, rfl⟩
  | cons v rest => exact .inr ⟨v, rest, rfl, rfl⟩

/-- When the stack is full (10_state.md R14). -/
theorem State.stackFull_iff (s : State) : s.stackFull = true ↔ s.params.stackDepth = some s.stack.length := by
  unfold State.stackFull
  cases h : s.params.stackDepth with
  | none => simp
  | some d => simpa using eq_comm

/-! ### Register lists -/

theorem nibbles_length : nibbles.length = 16 := by decide

theorem nibbles_getElem (k : Nat) (h : k < nibbles.length) : nibbles[k] = BitVec.ofNat 4 k := by
  simp only [nibbles, List.getElem_map, List.getElem_range]

theorem mem_nibbles (k : Nibble) : k ∈ nibbles := by
  simp only [nibbles, List.mem_map, List.mem_range]
  exact ⟨k.toNat, k.isLt, by simp⟩

@[simp] theorem State.registersUpTo_length (s : State) (x : Nibble) : (s.registersUpTo x).length = x.toNat + 1 := by
  have := x.isLt
  rw [State.registersUpTo, List.length_map, List.length_take, nibbles_length]
  omega

theorem State.registersUpTo_getElem (s : State) (x : Nibble) (k : Nat) (h : k < (s.registersUpTo x).length) :
    (s.registersUpTo x)[k] = s.getV (BitVec.ofNat 4 k) := by
  simp [State.registersUpTo, nibbles_getElem]

/-- All that `setRegistersFrom` can do (44_index_memory.md R102). -/
theorem State.setRegistersFrom_spec (bs : List Byte) (s : State) (n : Nat) (h : n + bs.length ≤ 16) :
    s.setRegistersFrom n bs = { s with v := (s.setRegistersFrom n bs).v } ∧
    (∀ r : Nibble, (s.setRegistersFrom n bs).getV r =
      if _ : n ≤ r.toNat ∧ r.toNat - n < bs.length then bs[r.toNat - n] else s.getV r) := by
  induction bs generalizing s n with
  | nil => exact ⟨rfl, fun r => by simp [State.setRegistersFrom]⟩
  | cons b bs ih =>
    simp only [List.length_cons] at h
    obtain ⟨hframe, hget⟩ := ih (s.setV (BitVec.ofNat 4 n) b) (n + 1) (by omega)
    refine ⟨by rw [State.setRegistersFrom, hframe]; rfl, fun r => ?_⟩
    rw [State.setRegistersFrom, hget r, State.getV_setV]
    have hn : (BitVec.ofNat 4 n).toNat = n := by simp; omega
    rcases Nat.lt_trichotomy r.toNat n with hlt | heq | hgt
    · have : r ≠ BitVec.ofNat 4 n := fun e => by rw [e] at hlt; omega
      rw [dif_neg (by omega), dif_neg (by omega), if_neg this]
    · have : r = BitVec.ofNat 4 n := BitVec.eq_of_toNat_eq (by omega)
      rw [dif_neg (by omega), dif_pos (by simp; omega), if_pos this]
      simp [heq]
    · have : r ≠ BitVec.ofNat 4 n := fun e => by rw [e] at hgt; omega
      rw [if_neg this]
      by_cases hin : r.toNat - n < bs.length + 1
      · rw [dif_pos (by omega), dif_pos (by simp; omega)]
        have : r.toNat - n = (r.toNat - (n + 1)) + 1 := by omega
        simp [this]
      · rw [dif_neg (by omega), dif_neg (by simp; omega)]

/-- All that the post-increment of FX55 and FX65 can do (44_index_memory.md R101). -/
theorem State.advanceIndex_spec (s : State) (x : Nibble) :
    s.advanceIndex x = if s.quirk then s.setIndex (s.index.toNat + x.toNat + 1) else s := rfl

/-! ### Keys -/

theorem State.mem_pressedKeys (s : State) (k : Nibble) : k ∈ s.pressedKeys ↔ s.key k = .pressed := by
  simp [State.pressedKeys, mem_nibbles]

/-- All that FX0A's choice can be: nothing when no key is pressed, else a pressed key (47_timers_keys.md R109). -/
theorem State.chosenKey_spec (s : State) :
    ((∀ k, s.key k ≠ .pressed) ∧ s.chosenKey = none) ∨ (∃ k, s.key k = .pressed ∧ s.chosenKey = some k) := by
  unfold State.chosenKey
  cases h : s.pressedKeys with
  | nil => exact .inl ⟨fun k hk => by simpa [h] using (s.mem_pressedKeys k).2 hk, rfl⟩
  | cons k ks =>
    refine .inr ⟨_, ?_, rfl⟩
    rw [← State.mem_pressedKeys, h]
    have hlt := Nat.mod_lt s.draws.keyChoice.toNat (show 0 < (k :: ks).length by simp)
    rw [List.getD_eq_getElem?_getD, List.getElem?_eq_getElem hlt]
    exact List.getElem_mem hlt

/-- Only the named key is written (60_exceptions.md R127). -/
theorem State.key_setKey (s : State) (k j : Nibble) (c : KeyState) :
    (s.setKey k c).key j = if j = k then c else s.key j := by
  by_cases h : j = k
  · subst h; simp [State.key, State.setKey]
  · have hn : k.toNat ≠ j.toNat := fun e => h (BitVec.eq_of_toNat_eq e.symm)
    simp [State.key, State.setKey, hn, h]

/-- Every key after a frame reset (60_exceptions.md R127). -/
theorem State.key_frameReset (s : State) (j : Nibble) : s.frameReset.key j = (s.key j).afterFrame := by
  simp [State.key, State.frameReset]

/-! ### Small shared operations -/

/-- All that a skip instruction can do (42_skip.md R76). -/
theorem State.skipIf_spec (s : State) (c : Bool) :
    s.skipIf c = .next { s with
      pc := if c then BitVec.ofNat 16 (mask12 (s.pc.toNat + 2)) else s.pc, result := .none } := by
  cases c <;> rfl

/-- All that a counter access can do (47_timers_keys.md R107). -/
theorem State.counterAccess_spec (s u : State) (e : ErrorKind) :
    s.counterAccess e u = if s.contended s.draws.counterLocked then s.raise e else u.complete := rfl

/-- All that FX1E's flag can do (44_index_memory.md R98). -/
theorem State.setIndexOverflowFlag_spec (s : State) (sum : Nat) :
    s.setIndexOverflowFlag sum = s ∨ ∃ b, s.setIndexOverflowFlag sum = s.setV vf b := by
  unfold State.setIndexOverflowFlag
  split
  · exact .inl rfl
  · split
    · exact .inr ⟨1, rfl⟩
    · split
      · exact .inr ⟨0, rfl⟩
      · exact .inl rfl

end Sys2Proof.Machine
end

