-- ==== Sys2Proof/Laws/Memory.lean ====
section
/-! SUPPORT. The byte memory: read after write, the canonical form, and one lemma per byte-list operation that says all
it can do. -/

namespace Sys2Proof.Machine

/-! ### The list of cells -/

theorem Memory.read_erase (m : Memory) (a a' : Nat) :
    (m.erase a).read a' = if a' = a then Memory.initial a' else m.read a' := by
  induction m with
  | nil => simp [Memory.erase, Memory.read]
  | cons c m ih =>
    unfold Memory.erase at ih ⊢
    by_cases hc : c.1 = a
    · have : (c.1 != a) = false := by simp [hc]
      rw [List.filter_cons_of_neg (by simp [this]), ih]
      by_cases h : a' = a
      · simp [h]
      · have : c.1 ≠ a' := by omega
        simp [h, Memory.read, this]
    · have : (c.1 != a) = true := by simp [hc]
      rw [List.filter_cons_of_pos (by exact this)]
      by_cases h : c.1 = a'
      · have : a' ≠ a := by omega
        simp [Memory.read, h, this]
      · simp only [Memory.read, h, if_false, ih]

theorem Memory.read_insert (m : Memory) (a a' : Nat) (b : Byte) (h : ∀ c ∈ m, c.1 ≠ a) :
    (m.insert a b).read a' = if a' = a then b else m.read a' := by
  induction m with
  | nil => simp [Memory.insert, Memory.read, eq_comm]
  | cons c m ih =>
    have hc : c.1 ≠ a := h c (by simp)
    have ih := ih (fun d hd => h d (by simp [hd]))
    unfold Memory.insert
    split
    · simp [Memory.read, eq_comm]
    · by_cases h' : c.1 = a'
      · have : a' ≠ a := by omega
        simp [Memory.read, h', this]
      · simp only [Memory.read, h', if_false, ih]

theorem Memory.not_mem_erase (m : Memory) (a : Nat) : ∀ c ∈ m.erase a, c.1 ≠ a := by
  intro c hc
  simpa [Memory.erase] using (List.mem_filter.1 hc).2

/-- A read after a write (20_memory.md R31, R32), for every list of cells. -/
theorem Memory.read_write (m : Memory) (a a' : Nat) (b : Byte) :
    (m.write a b).read a' = if a' = a then b else m.read a' := by
  unfold Memory.write
  split
  · rename_i hb
    rw [Memory.read_erase]
    by_cases h : a' = a <;> simp [h, hb]
  · rw [Memory.read_insert _ _ _ _ (Memory.not_mem_erase m a), Memory.read_erase]
    by_cases h : a' = a <;> simp [h]

theorem Memory.erase_wf {m : Memory} (h : m.wf) (a : Nat) : (m.erase a).wf :=
  ⟨h.1.filter _, fun c hc => h.2 c (List.mem_of_mem_filter hc)⟩

theorem Memory.mem_insert {m : Memory} {a : Nat} {b : Byte} {c : Host.Cell} (h : c ∈ m.insert a b) :
    c = (a, b) ∨ c ∈ m := by
  induction m with
  | nil => exact .inl (by simpa [Memory.insert] using h)
  | cons d m ih =>
    unfold Memory.insert at h
    split at h
    · rcases List.mem_cons.1 h with h | h
      · exact .inl h
      · exact .inr h
    · rcases List.mem_cons.1 h with h | h
      · exact .inr (by simp [h])
      · rcases ih h with h | h
        · exact .inl h
        · exact .inr (by simp [h])

theorem Memory.insert_wf {m : Memory} (h : m.wf) {a : Nat} {b : Byte} (ha : a < 0x1000) (hb : b ≠ Memory.initial a)
    (hn : ∀ c ∈ m, c.1 ≠ a) : (m.insert a b).wf := by
  refine ⟨?_, fun c hc => ?_⟩
  · obtain ⟨hp, -⟩ := h
    induction m with
    | nil => simp [Memory.insert]
    | cons c m ih =>
      have hp' := List.pairwise_cons.1 hp
      have hca : c.1 ≠ a := hn c (by simp)
      unfold Memory.insert
      split
      · rename_i hlt
        refine List.pairwise_cons.2 ⟨fun d hd => ?_, hp⟩
        rcases List.mem_cons.1 hd with rfl | hd
        · exact hlt
        · exact Nat.lt_trans hlt (hp'.1 d hd)
      · rename_i hge
        refine List.pairwise_cons.2 ⟨fun d hd => ?_, ih (fun d hd => hn d (by simp [hd])) hp'.2⟩
        rcases Memory.mem_insert hd with rfl | hd
        · show c.1 < a
          omega
        · exact hp'.1 d hd
  · rcases Memory.mem_insert hc with rfl | hc
    · exact ⟨ha, hb⟩
    · exact h.2 c hc

/-- Every write keeps the canonical form. -/
theorem Memory.write_wf {m : Memory} (h : m.wf) {a : Nat} (b : Byte) (ha : a < 0x1000) : (m.write a b).wf := by
  unfold Memory.write
  split
  · exact Memory.erase_wf h a
  · rename_i hb
    exact Memory.insert_wf (Memory.erase_wf h a) ha hb (Memory.not_mem_erase m a)

theorem Memory.nil_wf : Memory.wf [] := ⟨List.Pairwise.nil, fun _ h => absurd h (by simp)⟩

/-! ### One byte -/

theorem State.backed_m4096 (s : State) (h : s.params.memModel = .m4096) (a : Nat) : s.backed a = true := by
  simp [State.backed, h]

theorem State.backed_congr {s t : State} (h : t.params = s.params) (a : Nat) : t.backed a = s.backed a := by
  unfold State.backed
  rw [h]

/-- A byte stands at an address or not by its masked value alone (20_memory.md R29). -/
theorem State.backed_mask12 (s : State) {a a' : Nat} (h : mask12 a = mask12 a') : s.backed a = s.backed a' := by
  simp [State.backed, h]

theorem State.memRead_eq (s : State) (a : Nat) :
    s.memRead a = if s.backed a then some (s.mem.read (mask12 a)) else none := rfl

theorem State.memRead_congr {s t : State} (hm : t.mem = s.mem) (hp : t.params = s.params) (a : Nat) :
    t.memRead a = s.memRead a := by
  rw [State.memRead_eq, State.memRead_eq, State.backed_congr hp, hm]

theorem State.memRead_backed (s : State) (a : Nat) (h : s.backed a = true) :
    s.memRead a = some (s.mem.read (mask12 a)) := by
  simp [State.memRead, h]

theorem State.memRead_isSome_iff (s : State) (a : Nat) : (s.memRead a).isSome = s.backed a := by
  unfold State.memRead
  cases h : s.backed a <;> simp

/-- All that a byte write can do (20_memory.md R32). -/
theorem State.memWrite_spec (s : State) (a : Nat) (b : Byte) :
    (s.backed a = false ∧ s.memWrite a b = none) ∨
    (s.backed a = true ∧ s.memWrite a b = some { s with mem := s.mem.write (mask12 a) b }) := by
  unfold State.memWrite
  cases s.backed a <;> simp

/-! ### Lists of bytes -/

/-- All that `loadBytes` can answer (20_memory.md R36). -/
theorem State.loadBytes_spec (s : State) (n a : Nat) :
    (s.loadBytes a n = none ∧ ∃ k, k < n ∧ s.backed (a + k) = false) ∨
    (∃ bs, s.loadBytes a n = some bs ∧ (∀ k, k < n → s.backed (a + k) = true) ∧ bs.length = n ∧
      ∀ k (h : k < bs.length), bs[k] = s.mem.read (mask12 (a + k))) := by
  induction n generalizing a with
  | zero => exact .inr ⟨[], rfl, by omega, rfl, fun k h => absurd h (by simp)⟩
  | succ n ih =>
    rw [State.loadBytes]
    cases hb : s.backed a with
    | false =>
      refine .inl ⟨?_, 0, by omega, hb⟩
      simp [State.memRead, hb]
    | true =>
      rw [s.memRead_backed a hb]
      rcases ih (a + 1) with ⟨hn, k, hk, hkb⟩ | ⟨bs, hs, hall, hlen, hget⟩
      · exact .inl ⟨by rw [hn], k + 1, by omega, by rw [← hkb]; congr 1; omega⟩
      · refine .inr ⟨s.mem.read (mask12 a) :: bs, by rw [hs], fun k hk => ?_, by simp [hlen], fun k hk => ?_⟩
        · cases k with
          | zero => exact hb
          | succ k =>
            have := hall k (by omega)
            rwa [show a + (k + 1) = a + 1 + k by omega]
        · cases k with
          | zero => rfl
          | succ k =>
            rw [show a + (k + 1) = a + 1 + k by omega]
            exact hget k (by simpa using hk)

/-- All that `storeBytes` can answer: what it leaves unchanged, and what every byte reads afterwards
(20_memory.md R36, R45). -/
theorem State.storeBytes_spec (bs : List Byte) (s : State) (a : Nat) :
    (s.storeBytes a bs = none ∧ ∃ k, k < bs.length ∧ s.backed (a + k) = false) ∨
    (∃ t, s.storeBytes a bs = some t ∧ (∀ k, k < bs.length → s.backed (a + k) = true) ∧
      t = { s with mem := t.mem } ∧ (s.mem.wf → t.mem.wf) ∧
      (∀ c, (∀ k, k < bs.length → c ≠ mask12 (a + k)) → t.mem.read c = s.mem.read c) ∧
      (∀ k (h : k < bs.length), (∀ j, k < j → j < bs.length → mask12 (a + j) ≠ mask12 (a + k)) →
        t.mem.read (mask12 (a + k)) = bs[k])) := by
  induction bs generalizing s a with
  | nil =>
    refine .inr ⟨s, rfl, ?_, rfl, id, fun _ _ => rfl, ?_⟩
    · intro k hk; exact absurd hk (by simp)
    · intro k hk; exact absurd hk (by simp)
  | cons b bs ih =>
    rw [State.storeBytes]
    rcases s.memWrite_spec a b with ⟨hb, hw⟩ | ⟨hb, hw⟩
    · exact .inl ⟨by rw [hw], 0, by simp, hb⟩
    · rw [hw]
      show (State.storeBytes _ (a + 1) bs = none ∧ _) ∨ _
      rcases ih { s with mem := s.mem.write (mask12 a) b } (a + 1) with
        ⟨hn, k, hk, hkb⟩ | ⟨t, ht, hall, hframe, hwf, hout, hin⟩
      · exact .inl ⟨hn, k + 1, by simp; omega, by rw [← hkb]; show s.backed _ = s.backed _; congr 1; omega⟩
      · refine .inr ⟨t, ht, fun k hk => ?_, by rw [hframe], fun h => hwf (Memory.write_wf h b (mask12_lt a)),
          fun c hc => ?_, fun k hk hlast => ?_⟩
        · cases k with
          | zero => exact hb
          | succ k =>
            have := hall k (by simpa using hk)
            rwa [show a + (k + 1) = a + 1 + k by omega]
        · rw [hout c (fun k hk => by rw [show a + 1 + k = a + (k + 1) by omega]; exact hc (k + 1) (by simpa using hk))]
          have := hc 0 (by simp)
          simp only [Memory.read_write]
          rw [if_neg (by simpa using this)]
        · cases k with
          | zero =>
            rw [hout (mask12 (a + 0)) (fun j hj => by
              rw [show a + 1 + j = a + (j + 1) by omega]
              exact (hlast (j + 1) (by omega) (by simpa using hj)).symm)]
            simp only [Memory.read_write]
            rw [if_pos (by simp)]; rfl
          | succ k =>
            rw [show a + (k + 1) = a + 1 + k by omega]
            refine hin k (by simpa using hk) (fun j hj hl => ?_)
            rw [show a + 1 + j = a + (j + 1) by omega, show a + 1 + k = a + (k + 1) by omega]
            exact hlast (j + 1) (by omega) (by simpa using hl)

/-- All that a fetch can answer (20_memory.md R33). -/
theorem State.fetch16_spec (s : State) (a : Nat) :
    ((s.backed a = false ∨ s.backed (a + 1) = false) ∧ s.fetch16 a = none) ∨
    (s.backed a = true ∧ s.backed (a + 1) = true ∧
      s.fetch16 a = some (wordOfBytes (s.mem.read (mask12 a)) (s.mem.read (mask12 (a + 1))))) := by
  unfold State.fetch16 State.memRead
  cases s.backed a <;> cases s.backed (a + 1) <;> simp

end Sys2Proof.Machine
end

