-- ==== Sys2Proof/Laws/Display.lean ====
section
/-! SUPPORT. The frame buffer: one pixel after a toggle, after one sprite byte, and after a list of sprite bytes. -/

namespace Sys2Proof.Machine

theorem pixel_togglePixel (fb : FrameBuffer) (x x' : Fin 64) (y y' : Fin 32) :
    pixel (togglePixel fb x y) x' y' = if x' = x ∧ y' = y then !pixel fb x y else pixel fb x' y' := by
  unfold pixel togglePixel
  by_cases hx : x' = x
  · subst hx
    by_cases hy : y' = y
    · subst hy; simp
    · have : ¬ y.val = y'.val := fun e => hy (Fin.ext e.symm)
      simp [hy, this]
  · have : ¬ x.val = x'.val := fun e => hx (Fin.ext e.symm)
    simp [hx, this]

theorem pixel_blankFrame (x : Fin 64) (y : Fin 32) : pixel blankFrame x y = false := by
  simp [pixel, blankFrame]

theorem spriteColumn_val (x0 c : Nat) : (spriteColumn x0 c).val = (x0 + c) % 64 := by
  simp [spriteColumn]

theorem spriteColumn_inj {x0 c d : Nat} (hc : c < 8) (hd : d < 8) (h : spriteColumn x0 c = spriteColumn x0 d) :
    c = d := by
  have := congrArg Fin.val h
  rw [spriteColumn_val, spriteColumn_val] at this
  omega

/-- The first `n` columns of a sprite byte (46_display.md R106): what every pixel becomes, and what `hit` becomes. -/
theorem drawColumns_spec (sense : CollisionSense) (x0 : Nat) (y : Fin 32) (b : Byte) (canvas : Canvas) (n : Nat)
    (hn : n ≤ 8) :
    let out := (List.range n).foldl
      (fun acc c => if b.getLsbD (7 - c) then acc.toggle sense (spriteColumn x0 c) y else acc) canvas
    (∀ px py, (pixel out.fb px py = true ↔ ¬ (pixel canvas.fb px py = true ↔
      (py = y ∧ ∃ c, c < n ∧ px = spriteColumn x0 c ∧ b.getLsbD (7 - c) = true)))) ∧
    (out.hit = true ↔ canvas.hit = true ∨ ∃ c, c < n ∧ b.getLsbD (7 - c) = true ∧
      collides sense (pixel canvas.fb (spriteColumn x0 c) y) = true) := by
  induction n with
  | zero => simp
  | succ n ih =>
    obtain ⟨hp, hh⟩ := ih (by omega)
    simp only [List.range_succ, List.foldl_append, List.foldl_cons, List.foldl_nil]
    generalize (List.range n).foldl _ canvas = mid at hp hh
    by_cases hb : b.getLsbD (7 - n) = true
    · rw [if_pos hb]
      have hcol : pixel mid.fb (spriteColumn x0 n) y = pixel canvas.fb (spriteColumn x0 n) y := by
        rw [Bool.eq_iff_iff, hp]
        have : ¬ ∃ c, c < n ∧ spriteColumn x0 n = spriteColumn x0 c ∧ b.getLsbD (7 - c) = true := by
          rintro ⟨c, hc, he, -⟩
          have := spriteColumn_inj (by omega) (by omega) he
          omega
        simp only [this, and_false, iff_false, not_not]
      refine ⟨fun px py => ?_, ?_⟩
      · simp only [Canvas.toggle, pixel_togglePixel, hcol]
        by_cases hxy : px = spriteColumn x0 n ∧ py = y
        · obtain ⟨rfl, rfl⟩ := hxy
          have : ∃ c, c < n + 1 ∧ spriteColumn x0 n = spriteColumn x0 c ∧ b.getLsbD (7 - c) = true :=
            ⟨n, by omega, rfl, hb⟩
          rw [if_pos ⟨rfl, rfl⟩, iff_true_right (And.intro rfl this)]
          simp
        · rw [if_neg hxy, hp]
          have : (py = y ∧ ∃ c, c < n ∧ px = spriteColumn x0 c ∧ b.getLsbD (7 - c) = true) ↔
              (py = y ∧ ∃ c, c < n + 1 ∧ px = spriteColumn x0 c ∧ b.getLsbD (7 - c) = true) := by
            constructor
            · rintro ⟨h, c, hc, h'⟩; exact ⟨h, c, by omega, h'⟩
            · rintro ⟨h, c, hc, he, h'⟩
              refine ⟨h, c, ?_, he, h'⟩
              rcases Nat.lt_or_ge c n with h2 | h2
              · exact h2
              · exact absurd ⟨by rw [he, show c = n by omega], h⟩ hxy
          rw [this]
      · simp only [Canvas.toggle, Bool.or_eq_true, hh, hcol]
        constructor
        · rintro ((h | ⟨c, hc, h⟩) | h)
          · exact .inl h
          · exact .inr ⟨c, by omega, h⟩
          · exact .inr ⟨n, by omega, hb, h⟩
        · rintro (h | ⟨c, hc, h⟩)
          · exact .inl (.inl h)
          · rcases Nat.lt_or_ge c n with h2 | h2
            · exact .inl (.inr ⟨c, h2, h⟩)
            · have : c = n := by omega
              subst this; exact .inr h.2
    · rw [if_neg hb]
      have hgrow : ∀ (p : Nat → Prop), (∃ c, c < n + 1 ∧ p c ∧ b.getLsbD (7 - c) = true) ↔
          (∃ c, c < n ∧ p c ∧ b.getLsbD (7 - c) = true) := by
        intro p
        constructor
        · rintro ⟨c, hc, hpc, h⟩
          refine ⟨c, ?_, hpc, h⟩
          rcases Nat.lt_or_ge c n with h2 | h2
          · exact h2
          · exact absurd (by rwa [show n = c by omega]) hb
        · rintro ⟨c, hc, h⟩; exact ⟨c, by omega, h⟩
      refine ⟨fun px py => ?_, ?_⟩
      · rw [hp, hgrow (fun c => px = spriteColumn x0 c)]
      · rw [hh]
        have := hgrow (fun c => collides sense (pixel canvas.fb (spriteColumn x0 c) y) = true)
        simp only [and_comm (b := collides _ _ = true)]
        rw [this]

/-- One sprite byte (46_display.md R106): what every pixel becomes, and what `hit` becomes. -/
theorem drawByte_spec (sense : CollisionSense) (x0 : Nat) (y : Fin 32) (b : Byte) (canvas : Canvas) :
    (∀ px py, (pixel (canvas.drawByte sense x0 y b).fb px py = true ↔ ¬ (pixel canvas.fb px py = true ↔
      (py = y ∧ ∃ c, c < 8 ∧ px = spriteColumn x0 c ∧ b.getLsbD (7 - c) = true)))) ∧
    ((canvas.drawByte sense x0 y b).hit = true ↔ canvas.hit = true ∨ ∃ c, c < 8 ∧ b.getLsbD (7 - c) = true ∧
      collides sense (pixel canvas.fb (spriteColumn x0 c) y) = true) :=
  drawColumns_spec sense x0 y b canvas 8 (by decide)

/-- Bit `7 - c` of sprite byte `r` falls on a pixel, for sprite bytes from row `y0` (46_display.md R106). -/
def Covers (x0 y0 : Nat) (bs : List Byte) (px : Fin 64) (py : Fin 32) (r c : Nat) : Prop :=
  ∃ h : r < bs.length, c < 8 ∧ py.val = y0 + r ∧ px.val = (x0 + c) % 64 ∧ bs[r].getLsbD (7 - c) = true

/-- A list of sprite bytes (46_display.md R106): what every pixel becomes, and what `hit` becomes. -/
theorem drawRows_spec (sense : CollisionSense) (x0 : Nat) (bs : List Byte) (y0 : Nat) (canvas : Canvas) :
    (∀ px py, (pixel (canvas.drawRows sense x0 y0 bs).fb px py = true ↔ ¬ (pixel canvas.fb px py = true ↔
      ∃ r c, Covers x0 y0 bs px py r c))) ∧
    ((canvas.drawRows sense x0 y0 bs).hit = true ↔ canvas.hit = true ∨
      ∃ px py r c, Covers x0 y0 bs px py r c ∧ collides sense (pixel canvas.fb px py) = true) := by
  induction bs generalizing y0 canvas with
  | nil => simp [Canvas.drawRows, Covers]
  | cons b bs ih =>
    rw [Canvas.drawRows]
    split
    · rename_i hy
      obtain ⟨hp, hh⟩ := ih (y0 + 1) (canvas.drawByte sense x0 ⟨y0, hy⟩ b)
      obtain ⟨hp0, hh0⟩ := drawByte_spec sense x0 ⟨y0, hy⟩ b canvas
      have hfirst : ∀ px py c, Covers x0 y0 (b :: bs) px py 0 c ↔
          py = ⟨y0, hy⟩ ∧ c < 8 ∧ px = spriteColumn x0 c ∧ b.getLsbD (7 - c) = true := by
        intro px py c
        simp only [Covers, Fin.ext_iff, spriteColumn_val]
        constructor
        · rintro ⟨_, h1, h2, h3, h4⟩; exact ⟨h2, h1, h3, h4⟩
        · rintro ⟨h2, h1, h3, h4⟩; exact ⟨by simp, h1, h2, h3, h4⟩
      have hlater : ∀ px py r c, Covers x0 y0 (b :: bs) px py (r + 1) c ↔ Covers x0 (y0 + 1) bs px py r c := by
        intro px py r c
        simp only [Covers, List.length_cons, List.getElem_cons_succ]
        constructor
        · rintro ⟨h, h1, h2, h3⟩; exact ⟨by omega, h1, by omega, h3⟩
        · rintro ⟨h, h1, h2, h3⟩; exact ⟨by omega, h1, by omega, h3⟩
      have hsplit : ∀ px py, (∃ r c, Covers x0 y0 (b :: bs) px py r c) ↔
          (py = ⟨y0, hy⟩ ∧ ∃ c, c < 8 ∧ px = spriteColumn x0 c ∧ b.getLsbD (7 - c) = true) ∨
          (∃ r c, Covers x0 (y0 + 1) bs px py r c) := by
        intro px py
        constructor
        · rintro ⟨r, c, h⟩
          cases r with
          | zero => have := (hfirst px py c).1 h; exact .inl ⟨this.1, c, this.2⟩
          | succ r => exact .inr ⟨r, c, (hlater px py r c).1 h⟩
        · rintro (⟨h1, c, h2⟩ | ⟨r, c, h⟩)
          · exact ⟨0, c, (hfirst px py c).2 ⟨h1, h2⟩⟩
          · exact ⟨r + 1, c, (hlater px py r c).2 h⟩
      have hrow : ∀ px py r c, Covers x0 (y0 + 1) bs px py r c → py ≠ ⟨y0, hy⟩ := by
        rintro px py r c ⟨_, -, h, -⟩ e
        have : py.val = y0 := congrArg Fin.val e
        omega
      have hsame : ∀ px py, py ≠ ⟨y0, hy⟩ →
          pixel (canvas.drawByte sense x0 ⟨y0, hy⟩ b).fb px py = pixel canvas.fb px py := by
        intro px py h
        rw [Bool.eq_iff_iff, hp0]
        simp only [h, false_and, iff_false, not_not]
      refine ⟨fun px py => ?_, ?_⟩
      · rw [hp, hsplit]
        by_cases h : py = ⟨y0, hy⟩
        · have : ¬ ∃ r c, Covers x0 (y0 + 1) bs px py r c := fun ⟨r, c, hc⟩ => hrow px py r c hc h
          rw [hp0]
          simp only [this, iff_false, not_not, or_false]
        · rw [hsame px py h]
          simp only [h, false_and, false_or]
      · rw [hh, hh0]
        constructor
        · rintro ((h | ⟨c, hc, hb, h⟩) | ⟨px, py, r, c, hc, h⟩)
          · exact .inl h
          · exact .inr ⟨_, ⟨y0, hy⟩, 0, c, (hfirst _ _ c).2 ⟨rfl, hc, rfl, hb⟩, h⟩
          · rw [hsame px py (hrow px py r c hc)] at h
            exact .inr ⟨px, py, r + 1, c, (hlater px py r c).2 hc, h⟩
        · rintro (h | ⟨px, py, r, c, hc, h⟩)
          · exact .inl (.inl h)
          · cases r with
            | zero =>
              obtain ⟨rfl, h1, rfl, h2⟩ := (hfirst px py c).1 hc
              exact .inl (.inr ⟨c, h1, h2, h⟩)
            | succ r =>
              have hc' := (hlater px py r c).1 hc
              refine .inr ⟨px, py, r, c, hc', ?_⟩
              rwa [hsame px py (hrow px py r c hc')]
    · rename_i hy
      have hnone : ∀ px py r c, ¬ Covers x0 y0 (b :: bs) px py r c := by
        rintro px py r c ⟨_, -, h, -⟩
        have := py.isLt
        omega
      simp [hnone]

end Sys2Proof.Machine
end

