-- ==== Sys2Proof/Laws/PerInstr.lean ====
section
/-! SUPPORT. The statements made per instruction. Family `TableRow`: the word of an instruction has the fixed bits of
its row of spec/opcode_table.json (`match` under `mask`). -/

namespace Sys2Proof.Laws.TableRow

/-- The row's `mask` in opcode_table.json. -/
def tableMask : Instr → Word
  | .cls | .ret | .nop => 0xFFFF
  | .sys _ | .jp _ | .call _ | .ldI _ | .jpV0 _ => 0xF000
  | .seVxKk _ _ | .sneVxKk _ _ | .ldVxKk _ _ | .addVxKk _ _ | .rnd _ _ | .drw _ _ _ => 0xF000
  | .seVxVy _ _ | .ldVxVy _ _ | .orVxVy _ _ | .andVxVy _ _ | .xorVxVy _ _ | .addVxVy _ _ | .subVxVy _ _
  | .shrVxVy _ _ | .subnVxVy _ _ | .shlVxVy _ _ | .sneVxVy _ _ => 0xF00F
  | .skp _ | .sknp _ | .ldVxDt _ | .ldVxK _ | .ldDtVx _ | .ldStVx _ | .addIVx _ | .ldFVx _ | .ldBVx _ | .ldMiVx _
  | .ldVxMi _ => 0xF0FF

/-- The row's `match` in opcode_table.json. -/
def tableMatch : Instr → Word
  | .cls => 0x00E0
  | .ret => 0x00EE
  | .nop => 0x00FD
  | .sys _ => 0x0000
  | .jp _ => 0x1000
  | .call _ => 0x2000
  | .seVxKk _ _ => 0x3000
  | .sneVxKk _ _ => 0x4000
  | .seVxVy _ _ => 0x5000
  | .ldVxKk _ _ => 0x6000
  | .addVxKk _ _ => 0x7000
  | .ldVxVy _ _ => 0x8000
  | .orVxVy _ _ => 0x8001
  | .andVxVy _ _ => 0x8002
  | .xorVxVy _ _ => 0x8003
  | .addVxVy _ _ => 0x8004
  | .subVxVy _ _ => 0x8005
  | .shrVxVy _ _ => 0x8006
  | .subnVxVy _ _ => 0x8007
  | .shlVxVy _ _ => 0x800E
  | .sneVxVy _ _ => 0x9000
  | .ldI _ => 0xA000
  | .jpV0 _ => 0xB000
  | .rnd _ _ => 0xC000
  | .drw _ _ _ => 0xD000
  | .skp _ => 0xE09E
  | .sknp _ => 0xE0A1
  | .ldVxDt _ => 0xF007
  | .ldVxK _ => 0xF00A
  | .ldDtVx _ => 0xF015
  | .ldStVx _ => 0xF018
  | .addIVx _ => 0xF01E
  | .ldFVx _ => 0xF029
  | .ldBVx _ => 0xF033
  | .ldMiVx _ => 0xF055
  | .ldVxMi _ => 0xF065

/-- The instruction's word has the fixed bits of its row of the opcode table. -/
def Statement (i : Instr) : Prop := encode i &&& tableMask i = tableMatch i

theorem cls : Statement (Instr.cls) := by unfold Statement; decide

theorem ret : Statement (Instr.ret) := by unfold Statement; decide

theorem nop : Statement (Instr.nop) := by unfold Statement; decide

theorem sys (nnn : Addr) : Statement (Instr.sys nnn) := by
  unfold Statement encode tableMask tableMatch
  rw [and_F000, opField_nnn]; rfl

theorem jp (nnn : Addr) : Statement (Instr.jp nnn) := by
  unfold Statement encode tableMask tableMatch
  rw [and_F000, opField_nnn]; rfl

theorem call (nnn : Addr) : Statement (Instr.call nnn) := by
  unfold Statement encode tableMask tableMatch
  rw [and_F000, opField_nnn]; rfl

theorem seVxKk (x : Nibble) (kk : Byte) : Statement (Instr.seVxKk x kk) := by
  unfold Statement encode tableMask tableMatch
  rw [and_F000, opField_xkk]; rfl

theorem sneVxKk (x : Nibble) (kk : Byte) : Statement (Instr.sneVxKk x kk) := by
  unfold Statement encode tableMask tableMatch
  rw [and_F000, opField_xkk]; rfl

theorem seVxVy (x y : Nibble) : Statement (Instr.seVxVy x y) := by
  unfold Statement encode tableMask tableMatch
  rw [and_F00F, opField_xyn, nField_xyn]; rfl

theorem ldVxKk (x : Nibble) (kk : Byte) : Statement (Instr.ldVxKk x kk) := by
  unfold Statement encode tableMask tableMatch
  rw [and_F000, opField_xkk]; rfl

theorem addVxKk (x : Nibble) (kk : Byte) : Statement (Instr.addVxKk x kk) := by
  unfold Statement encode tableMask tableMatch
  rw [and_F000, opField_xkk]; rfl

theorem ldVxVy (x y : Nibble) : Statement (Instr.ldVxVy x y) := by
  unfold Statement encode tableMask tableMatch
  rw [and_F00F, opField_xyn, nField_xyn]; rfl

theorem orVxVy (x y : Nibble) : Statement (Instr.orVxVy x y) := by
  unfold Statement encode tableMask tableMatch
  rw [and_F00F, opField_xyn, nField_xyn]; rfl

theorem andVxVy (x y : Nibble) : Statement (Instr.andVxVy x y) := by
  unfold Statement encode tableMask tableMatch
  rw [and_F00F, opField_xyn, nField_xyn]; rfl

theorem xorVxVy (x y : Nibble) : Statement (Instr.xorVxVy x y) := by
  unfold Statement encode tableMask tableMatch
  rw [and_F00F, opField_xyn, nField_xyn]; rfl

theorem addVxVy (x y : Nibble) : Statement (Instr.addVxVy x y) := by
  unfold Statement encode tableMask tableMatch
  rw [and_F00F, opField_xyn, nField_xyn]; rfl

theorem subVxVy (x y : Nibble) : Statement (Instr.subVxVy x y) := by
  unfold Statement encode tableMask tableMatch
  rw [and_F00F, opField_xyn, nField_xyn]; rfl

theorem shrVxVy (x y : Nibble) : Statement (Instr.shrVxVy x y) := by
  unfold Statement encode tableMask tableMatch
  rw [and_F00F, opField_xyn, nField_xyn]; rfl

theorem subnVxVy (x y : Nibble) : Statement (Instr.subnVxVy x y) := by
  unfold Statement encode tableMask tableMatch
  rw [and_F00F, opField_xyn, nField_xyn]; rfl

theorem shlVxVy (x y : Nibble) : Statement (Instr.shlVxVy x y) := by
  unfold Statement encode tableMask tableMatch
  rw [and_F00F, opField_xyn, nField_xyn]; rfl

theorem sneVxVy (x y : Nibble) : Statement (Instr.sneVxVy x y) := by
  unfold Statement encode tableMask tableMatch
  rw [and_F00F, opField_xyn, nField_xyn]; rfl

theorem ldI (nnn : Addr) : Statement (Instr.ldI nnn) := by
  unfold Statement encode tableMask tableMatch
  rw [and_F000, opField_nnn]; rfl

theorem jpV0 (nnn : Addr) : Statement (Instr.jpV0 nnn) := by
  unfold Statement encode tableMask tableMatch
  rw [and_F000, opField_nnn]; rfl

theorem rnd (x : Nibble) (kk : Byte) : Statement (Instr.rnd x kk) := by
  unfold Statement encode tableMask tableMatch
  rw [and_F000, opField_xkk]; rfl

theorem drw (x y n : Nibble) : Statement (Instr.drw x y n) := by
  unfold Statement encode tableMask tableMatch
  rw [and_F000, opField_xyn]; rfl

theorem skp (x : Nibble) : Statement (Instr.skp x) := by
  unfold Statement encode tableMask tableMatch
  rw [and_F0FF, opField_xkk, kkField_xkk]; rfl

theorem sknp (x : Nibble) : Statement (Instr.sknp x) := by
  unfold Statement encode tableMask tableMatch
  rw [and_F0FF, opField_xkk, kkField_xkk]; rfl

theorem ldVxDt (x : Nibble) : Statement (Instr.ldVxDt x) := by
  unfold Statement encode tableMask tableMatch
  rw [and_F0FF, opField_xkk, kkField_xkk]; rfl

theorem ldVxK (x : Nibble) : Statement (Instr.ldVxK x) := by
  unfold Statement encode tableMask tableMatch
  rw [and_F0FF, opField_xkk, kkField_xkk]; rfl

theorem ldDtVx (x : Nibble) : Statement (Instr.ldDtVx x) := by
  unfold Statement encode tableMask tableMatch
  rw [and_F0FF, opField_xkk, kkField_xkk]; rfl

theorem ldStVx (x : Nibble) : Statement (Instr.ldStVx x) := by
  unfold Statement encode tableMask tableMatch
  rw [and_F0FF, opField_xkk, kkField_xkk]; rfl

theorem addIVx (x : Nibble) : Statement (Instr.addIVx x) := by
  unfold Statement encode tableMask tableMatch
  rw [and_F0FF, opField_xkk, kkField_xkk]; rfl

theorem ldFVx (x : Nibble) : Statement (Instr.ldFVx x) := by
  unfold Statement encode tableMask tableMatch
  rw [and_F0FF, opField_xkk, kkField_xkk]; rfl

theorem ldBVx (x : Nibble) : Statement (Instr.ldBVx x) := by
  unfold Statement encode tableMask tableMatch
  rw [and_F0FF, opField_xkk, kkField_xkk]; rfl

theorem ldMiVx (x : Nibble) : Statement (Instr.ldMiVx x) := by
  unfold Statement encode tableMask tableMatch
  rw [and_F0FF, opField_xkk, kkField_xkk]; rfl

theorem ldVxMi (x : Nibble) : Statement (Instr.ldVxMi x) := by
  unfold Statement encode tableMask tableMatch
  rw [and_F0FF, opField_xkk, kkField_xkk]; rfl

end Sys2Proof.Laws.TableRow
end

