-- ==== Sys2Proof/Laws/Step.lean ====
section
/-! SUPPORT. All that the next event and an engine step can be. -/

namespace Sys2Proof.Machine

/-- Taking the next event changes nothing but the model's own record of events (log 3). -/
theorem State.nextEvent_frame (s : State) :
    s.nextEvent.2 = { s with inputs := s.nextEvent.2.inputs, clock := s.nextEvent.2.clock } := by
  unfold State.nextEvent
  split <;> rfl

/-- The PC of an instruction's body (40_dispatch.md R63). -/
theorem State.beginBody_eq (s : State) (d : Draws) : s.beginBody d = s.inBody d := rfl

/-- All that `single_step` can be, in the order of 60_exceptions.md R116. -/
theorem State.singleStep_spec (s : State) (d : Draws) :
    (s.faulted = true ∧ s.singleStep d = .fault .unspecifiedAfterFatal) ∨
    (s.faulted = false ∧ (s.run = false ∨ s.contended d.runLocked = true) ∧ s.singleStep d = s.raise .executionLocked) ∨
    (s.Ready d ∧ s.fetch16 s.pc.toNat = none ∧ s.singleStep d = .fault .memPanic) ∨
    (s.Ready d ∧ ∃ w, s.fetch16 s.pc.toNat = some w ∧ s.singleStep d = (s.inBody d).runWord w) := by
  unfold State.singleStep
  cases hf : s.faulted
  · rw [if_neg (by simp)]
    by_cases h : s.run = false ∨ s.contended d.runLocked
    · rw [if_pos h]; exact .inr (.inl ⟨rfl, h, rfl⟩)
    · rw [if_neg h]
      obtain ⟨hr, hc⟩ := not_or.1 h
      have ready : s.Ready d := ⟨hf, by simpa using hr, by
        simpa [State.contended, -Bool.not_eq_true, Bool.and_eq_true, Bool.eq_false_iff, imp_iff_not_or] using hc⟩
      cases hw : s.fetch16 s.pc.toNat with
      | none => exact .inr (.inr (.inl ⟨ready, rfl, rfl⟩))
      | some w => exact .inr (.inr (.inr ⟨ready, w, rfl, rfl⟩))
  · exact .inl ⟨rfl, rfl⟩

end Sys2Proof.Machine
end

