-- ==== Sys2Proof/Tests/Slice0.lean ====
section
/-! SUPPORT. The model's own tests. Expected values come from spec/95_test_vectors.md (the id stands in each comment) or
from the rule named; last, one witness for each obligation that has hypotheses. -/

open Sys2Proof Sys2Proof.Machine

namespace Sys2Proof.Tests

/-! ### Helpers -/

/-- No draw comes out contended; FX0A takes the first pressed key. -/
def calm : Draws := { runLocked := false, counterLocked := false, keyChoice := 0 }

/-- Both contention draws come out true. -/
def busy : Draws := { runLocked := true, counterLocked := true, keyChoice := 0 }

/-- The parameters of this hardware with the reference's 4095-byte memory. -/
def params4095 : Params := { Config.thisHardware with memModel := .m4095 }

/-- A running machine with `VF = 0x77` (95_test_vectors.md 2.4), the given `QUIRK`, `I` and registers. -/
def bench (quirk : Bool) (i : Nat) (regs : List (Nibble × Byte)) : State :=
  regs.foldl (fun s p => s.setV p.1 p.2)
    ({ State.construct quirk Config.thisHardware 0 with run := true, delayLive := true, soundLive := true }.setIndex i
      |>.setVF 0x77)

/-- `bench` with 4095-byte memory. -/
def bench4095 (i : Nat) (regs : List (Nibble × Byte)) : State := { bench false i regs with params := params4095 }

/-- A state with bytes in memory from an address on. -/
def poke (s : State) (a : Nat) : List Byte → State
  | [] => s
  | b :: bs => poke { s with mem := s.mem.write (mask12 a) b } (a + 1) bs

/-- A word at the PC, and one engine step. -/
def run (s : State) (w : Word) : Answer := (s.placeWord w).singleStep calm

/-- A view of the next state, if there is one. -/
def look {α : Type} (view : State → α) : Answer → Option α
  | .next t => some (view t)
  | _ => none

/-- A fault, if that is the answer. -/
def faultOf : Answer → Option Fault
  | .fault f => some f
  | _ => none

/-- A refusal, if that is the answer. -/
def refusalOf : Answer → Option Refusal
  | .refused r => some r
  | _ => none

/-! ### WellFormed -/

theorem test_wellFormed_refuses_sys_cls : (Instr.sys 0x0E0).wellFormed = false := by decide
theorem test_wellFormed_refuses_sys_ret : (Instr.sys 0x0EE).wellFormed = false := by decide
theorem test_wellFormed_refuses_sys_nop : (Instr.sys 0x0FD).wellFormed = false := by decide
theorem test_wellFormed_accepts_sys : (Instr.sys 0x0E1).wellFormed = true ∧ (Instr.sys 0x000).wellFormed = true := by
  decide

/-! ### Decode: one word per constructor, written out from 30_encoding.md R48 and R51 -/

theorem test_decode_cls : decodeBytes [0x00, 0xE0] = .ok .cls := by decide
theorem test_decode_ret : decodeBytes [0x00, 0xEE] = .ok .ret := by decide
theorem test_decode_nop : decodeBytes [0x00, 0xFD] = .ok .nop := by decide
theorem test_decode_sys : decodeBytes [0x01, 0x23] = .ok (.sys 0x123) := by decide
theorem test_decode_jp : decodeBytes [0x1A, 0xBC] = .ok (.jp 0xABC) := by decide
theorem test_decode_call : decodeBytes [0x24, 0x00] = .ok (.call 0x400) := by decide
theorem test_decode_seVxKk : decodeBytes [0x31, 0x42] = .ok (.seVxKk 0x1 0x42) := by decide
theorem test_decode_sneVxKk : decodeBytes [0x41, 0x42] = .ok (.sneVxKk 0x1 0x42) := by decide
theorem test_decode_seVxVy : decodeBytes [0x51, 0x20] = .ok (.seVxVy 0x1 0x2) := by decide
theorem test_decode_ldVxKk : decodeBytes [0x6A, 0x5C] = .ok (.ldVxKk 0xA 0x5C) := by decide
theorem test_decode_addVxKk : decodeBytes [0x71, 0x02] = .ok (.addVxKk 0x1 0x02) := by decide
theorem test_decode_ldVxVy : decodeBytes [0x81, 0x20] = .ok (.ldVxVy 0x1 0x2) := by decide
theorem test_decode_orVxVy : decodeBytes [0x81, 0x21] = .ok (.orVxVy 0x1 0x2) := by decide
theorem test_decode_andVxVy : decodeBytes [0x81, 0x22] = .ok (.andVxVy 0x1 0x2) := by decide
theorem test_decode_xorVxVy : decodeBytes [0x81, 0x23] = .ok (.xorVxVy 0x1 0x2) := by decide
theorem test_decode_addVxVy : decodeBytes [0x81, 0x24] = .ok (.addVxVy 0x1 0x2) := by decide
theorem test_decode_subVxVy : decodeBytes [0x81, 0x25] = .ok (.subVxVy 0x1 0x2) := by decide
theorem test_decode_shrVxVy : decodeBytes [0x81, 0x26] = .ok (.shrVxVy 0x1 0x2) := by decide
theorem test_decode_subnVxVy : decodeBytes [0x81, 0x27] = .ok (.subnVxVy 0x1 0x2) := by decide
theorem test_decode_shlVxVy : decodeBytes [0x81, 0x2E] = .ok (.shlVxVy 0x1 0x2) := by decide
theorem test_decode_sneVxVy : decodeBytes [0x91, 0x20] = .ok (.sneVxVy 0x1 0x2) := by decide
theorem test_decode_ldI : decodeBytes [0xA1, 0x23] = .ok (.ldI 0x123) := by decide
theorem test_decode_jpV0 : decodeBytes [0xB2, 0xF0] = .ok (.jpV0 0x2F0) := by decide
theorem test_decode_rnd : decodeBytes [0xC3, 0x0F] = .ok (.rnd 0x3 0x0F) := by decide
theorem test_decode_drw : decodeBytes [0xD0, 0x15] = .ok (.drw 0x0 0x1 0x5) := by decide
theorem test_decode_skp : decodeBytes [0xE1, 0x9E] = .ok (.skp 0x1) := by decide
theorem test_decode_sknp : decodeBytes [0xE1, 0xA1] = .ok (.sknp 0x1) := by decide
theorem test_decode_ldVxDt : decodeBytes [0xF3, 0x07] = .ok (.ldVxDt 0x3) := by decide
theorem test_decode_ldVxK : decodeBytes [0xF5, 0x0A] = .ok (.ldVxK 0x5) := by decide
theorem test_decode_ldDtVx : decodeBytes [0xF3, 0x15] = .ok (.ldDtVx 0x3) := by decide
theorem test_decode_ldStVx : decodeBytes [0xF0, 0x18] = .ok (.ldStVx 0x0) := by decide
theorem test_decode_addIVx : decodeBytes [0xF3, 0x1E] = .ok (.addIVx 0x3) := by decide
theorem test_decode_ldFVx : decodeBytes [0xF4, 0x29] = .ok (.ldFVx 0x4) := by decide
theorem test_decode_ldBVx : decodeBytes [0xF5, 0x33] = .ok (.ldBVx 0x5) := by decide
theorem test_decode_ldMiVx : decodeBytes [0xF2, 0x55] = .ok (.ldMiVx 0x2) := by decide
theorem test_decode_ldVxMi : decodeBytes [0xF2, 0x65] = .ok (.ldVxMi 0x2) := by decide

/-- V-D9, and V-D8: words that are no instruction. -/
theorem test_decode_illegal : [0x9121, 0x8128, 0x8129, 0x812A, 0x812B, 0x812C, 0x812D, 0x812F, 0xE19F, 0xE1A0, 0xE100,
    0xF100, 0xF108, 0xF1FF, 0x5121].all (fun w => (decodeWord w).instr? = none) = true := by decide
/-- V-D10, V-D7: every other word of the top-nibble-0 group is a jump. -/
theorem test_decode_sys_group : [0x00E1, 0x00EF, 0x00FE, 0x0FFF, 0x0000].map (fun w => (decodeWord w).instr?) =
    [some (.sys 0x0E1), some (.sys 0x0EF), some (.sys 0x0FE), some (.sys 0xFFF), some (.sys 0x000)] := by decide
/-- R47: one byte is no instruction. -/
theorem test_decode_truncated : decodeBytes [0x12] = .rejected .truncated := by decide
/-- The opcode table's numbering: a 16-bit row of F065. -/
theorem test_decodeTableWord : decodeTableWord 16 0xF065 = some (.ldVxMi 0x0) := by decide

/-! ### The step -/

/-- V-D1: a stopped machine. -/
theorem test_step_stopped :
    look (fun t => (t.result, t.pc)) ((State.construct false Config.thisHardware 0).singleStep calm) =
      some (.executionLocked, 0x200) := by decide
/-- V-D2: the run-flag contention draw yields true. -/
theorem test_step_contended :
    look (fun t => (t.result, t.pc)) ((bench false 0 []).singleStep busy) = some (.executionLocked, 0x200) := by decide
/-- V-D4 and V-D5: the fetch wraps at 0xFFF, and MemPanic under M4095. -/
theorem test_fetch_wraps :
    look (fun t => (t.getV 0, t.pc)) ((poke (bench false 0 [] |>.setPc 0xFFF) 0xFFF [0x60]).singleStep calm) =
      some (0xF0, 0x001) ∧
    faultOf ((bench4095 0 [] |>.setPc 0xFFF).singleStep calm) = some .memPanic := by decide
/-- V-D6: an odd PC. -/
theorem test_fetch_odd :
    look (·.pc) ((poke (bench false 0 [(4, 0x56)] |>.setPc 0x201) 0x200 [0x12, 0x34, 0x56, 0x78]).singleStep calm) =
      some 0x205 := by decide
/-- V-D8: an illegal word. -/
theorem test_step_illegal :
    look (fun t => (t.result, t.pc, t.faulted, t.run)) (run (bench false 0 []) 0x5121) =
      some (.invalidInstruction, 0x202, true, true) := by decide
/-- V-D11: a step while FAULTED. -/
theorem test_step_faulted :
    faultOf ({ bench false 0 [] with faulted := true }.singleStep calm) = some .unspecifiedAfterFatal := by decide
/-- The placed word is what the next step runs (log 11): V-A1. -/
theorem test_withFetchWord :
    look (fun t => (t.getV 0xA, t.pc))
      (step ((State.construct false Config.thisHardware 0).withFetchWord 16 0x6A5C)) = some (0x5C, 0x202) := by decide

/-! ### Control transfer -/

/-- V-F9. -/
theorem test_ret : look (fun t => (t.pc, t.stack))
    (run { bench false 0 [] with pc := 0x400, stack := [0x20A, 0x202] } 0x00EE) = some (0x20A, [0x202]) := by decide
/-- V-F10, S3a. -/
theorem test_ret_underflow : look (fun t => (t.result, t.pc, t.faulted))
    (run { bench false 0 [] with pc := 0x300 } 0x00EE) = some (.stackUnderflow, 0x302, true) := by decide
/-- V-F4. -/
theorem test_nop : look (·.pc) (run (bench false 0 []) 0x00FD) = some 0x202 := by decide
/-- V-F3. -/
theorem test_sys : look (·.pc) (run (bench false 0 []) 0x0123) = some 0x123 := by decide
/-- V-F1. -/
theorem test_jp : look (·.pc) (run (bench false 0 []) 0x1ABC) = some 0xABC := by decide
/-- V-F5 and V-F6. -/
theorem test_call :
    look (fun t => (t.stack, t.pc)) (run (bench false 0 []) 0x2400) = some ([0x202], 0x400) ∧
    look (fun t => (t.stack, t.pc)) (run { bench false 0 [] with pc := 0xFFE } 0x2300) = some ([0x000], 0x300) := by
  decide
/-- V-F7 and V-F8. -/
theorem test_call_overflow :
    look (fun t => (t.result, t.pc, t.stack.length, t.faulted))
      (run { bench false 0 [] with stack := List.replicate 16 0x202 } 0x2400) = some (.stackOverflow, 0x202, 16, true) ∧
    look (fun t => (t.pc, t.stack.length))
      (run { bench false 0 [] with
        stack := List.replicate 16 0x202, params := { Config.thisHardware with stackDepth := none } } 0x2400) =
      some (0x400, 17) := by decide
/-- V-F11. -/
theorem test_jpV0 :
    look (·.pc) (run (bench false 0 [(0, 0x10), (3, 0x20)]) 0xB300) = some 0x320 ∧
    look (·.pc) (run (bench true 0 [(0, 0x10), (3, 0x20)]) 0xB300) = some 0x310 := by decide
/-- V-F12. -/
theorem test_jpV0_wraps :
    look (·.pc) (run (bench true 0 [(0, 0xFF), (0xF, 0x02)]) 0xBFFF) = some 0x0FE ∧
    look (·.pc) (run (bench false 0 [(0, 0xFF), (0xF, 0x02)]) 0xBFFF) = some 0x001 := by decide

/-! ### Skips -/

/-- V-S1, V-S2, V-S14. -/
theorem test_seVxKk :
    look (·.pc) (run (bench false 0 [(1, 0x42)]) 0x3142) = some 0x204 ∧
    look (·.pc) (run (bench false 0 [(1, 0x43)]) 0x3142) = some 0x202 ∧
    look (·.pc) (run (bench false 0 [(0xF, 0x01)]) 0x3F01) = some 0x204 := by decide
/-- V-S13: the skip wraps. -/
theorem test_seVxKk_wraps : look (·.pc) (run { bench false 0 [] with pc := 0xFFE } 0x3000) = some 0x002 := by decide
/-- V-S3, V-S4. -/
theorem test_sneVxKk :
    look (·.pc) (run (bench false 0 [(1, 0x42)]) 0x4142) = some 0x202 ∧
    look (·.pc) (run (bench false 0 [(1, 0x43)]) 0x4142) = some 0x204 := by decide
/-- V-S5, V-S6. -/
theorem test_seVxVy :
    look (·.pc) (run (bench false 0 [(1, 0x07), (2, 0x07)]) 0x5120) = some 0x204 ∧
    look (·.pc) (run (bench false 0 [(1, 0x33)]) 0x5110) = some 0x204 := by decide
/-- V-S7, V-S8. -/
theorem test_sneVxVy :
    look (·.pc) (run (bench false 0 [(1, 0x01), (2, 0x02)]) 0x9120) = some 0x204 ∧
    look (·.pc) (run (bench false 0 [(1, 0x01)]) 0x9110) = some 0x202 := by decide
/-- V-S9, V-S10. -/
theorem test_skp :
    look (·.pc) (run ((bench false 0 [(1, 0x15)]).press 5) 0xE19E) = some 0x204 ∧
    look (·.pc) (run ((bench false 0 [(1, 0x05)]).release 5) 0xE19E) = some 0x202 := by decide
/-- V-S11, V-S12. -/
theorem test_sknp :
    look (·.pc) (run (bench false 0 [(1, 0x05)]) 0xE1A1) = some 0x204 ∧
    look (·.pc) (run ((bench false 0 [(1, 0x05)]).press 5) 0xE1A1) = some 0x202 := by decide

/-! ### Arithmetic and logic -/

/-- V-A2. -/
theorem test_addVxKk : look (fun t => (t.getV 1, t.getV 0xF)) (run (bench false 0 [(1, 0xFF)]) 0x7102) =
    some (0x01, 0x77) := by decide
/-- V-A3. -/
theorem test_addVxKk_vf : look (·.getV 0xF) (run (bench false 0 [(0xF, 0x10)]) 0x7FF5) = some 0x05 := by decide
/-- V-A4. -/
theorem test_ldVxVy : look (·.getV 1) (run (bench false 0 [(2, 0x33)]) 0x8120) = some 0x33 := by decide
/-- V-A5. -/
theorem test_orVxVy : look (fun t => (t.getV 1, t.getV 0xF)) (run (bench false 0 [(1, 0xF0), (2, 0x0F)]) 0x8121) =
    some (0xFF, 0x77) := by decide
/-- V-A6. -/
theorem test_andVxVy : look (fun t => (t.getV 1, t.getV 0xF)) (run (bench false 0 [(1, 0xF0), (2, 0x3C)]) 0x8122) =
    some (0x30, 0x77) := by decide
/-- V-A7. -/
theorem test_xorVxVy : look (fun t => (t.getV 1, t.getV 0xF)) (run (bench false 0 [(1, 0xF0), (2, 0x3C)]) 0x8123) =
    some (0xCC, 0x77) := by decide
/-- V-A9, V-A10, V-A11. -/
theorem test_addVxVy :
    look (fun t => (t.getV 1, t.getV 0xF)) (run (bench false 0 [(1, 0xFF), (2, 0x01)]) 0x8124) = some (0x00, 1) ∧
    look (fun t => (t.getV 1, t.getV 0xF)) (run (bench false 0 [(1, 0x7F), (2, 0x80)]) 0x8124) = some (0xFF, 0) ∧
    look (fun t => (t.getV 1, t.getV 0xF)) (run (bench false 0 [(1, 0x80)]) 0x8114) = some (0x00, 1) := by decide
/-- V-A12, V-A13: X = F and Y = F. -/
theorem test_addVxVy_vf :
    look (·.getV 0xF) (run (bench false 0 [(0xF, 0xFF), (1, 0x02)]) 0x8F14) = some 1 ∧
    look (fun t => (t.getV 1, t.getV 0xF)) (run (bench false 0 [(0xF, 0x20), (1, 0x10)]) 0x81F4) = some (0x30, 0) := by
  decide
/-- V-A14, V-A15, V-A16. -/
theorem test_subVxVy :
    look (fun t => (t.getV 1, t.getV 0xF)) (run (bench false 0 [(1, 0x05), (2, 0x03)]) 0x8125) = some (0x02, 1) ∧
    look (fun t => (t.getV 1, t.getV 0xF)) (run (bench false 0 [(1, 0x03), (2, 0x05)]) 0x8125) = some (0xFE, 0) ∧
    look (fun t => (t.getV 1, t.getV 0xF)) (run (bench false 0 [(1, 0x04), (2, 0x04)]) 0x8125) = some (0x00, 0) := by
  decide
/-- V-A17, V-A18. -/
theorem test_shrVxVy :
    look (fun t => (t.getV 1, t.getV 0xF)) (run (bench false 0 [(1, 0x05), (2, 0x0C)]) 0x8126) = some (0x02, 1) ∧
    look (fun t => (t.getV 1, t.getV 0xF)) (run (bench true 0 [(1, 0x05), (2, 0x0C)]) 0x8126) = some (0x06, 0) ∧
    look (fun t => (t.getV 1, t.getV 2, t.getV 0xF)) (run (bench true 0 [(1, 0x04), (2, 0xFF)]) 0x8126) =
      some (0x7F, 0xFF, 1) := by decide
/-- V-A19: X = F. -/
theorem test_shrVxVy_vf : look (·.getV 0xF) (run (bench false 0 [(0xF, 0x03)]) 0x8F06) = some 1 := by decide
/-- V-A20, V-A21, V-A22. -/
theorem test_subnVxVy :
    look (fun t => (t.getV 1, t.getV 0xF)) (run (bench false 0 [(1, 0x03), (2, 0x05)]) 0x8127) = some (0x02, 1) ∧
    look (fun t => (t.getV 1, t.getV 0xF)) (run (bench false 0 [(1, 0x05), (2, 0x03)]) 0x8127) = some (0xFE, 0) ∧
    look (fun t => (t.getV 1, t.getV 0xF)) (run (bench false 0 [(1, 0x09), (2, 0x09)]) 0x8127) = some (0x00, 0) := by
  decide
/-- V-A23, V-A24. -/
theorem test_shlVxVy :
    look (fun t => (t.getV 1, t.getV 0xF)) (run (bench false 0 [(1, 0x81), (2, 0x01)]) 0x812E) = some (0x02, 1) ∧
    look (fun t => (t.getV 1, t.getV 0xF)) (run (bench true 0 [(1, 0x81), (2, 0x01)]) 0x812E) = some (0x02, 0) ∧
    look (fun t => (t.getV 1, t.getV 0xF)) (run (bench true 0 [(1, 0x40), (2, 0x00)]) 0x812E) = some (0x00, 0) := by
  decide
/-- V-A25: X = F. -/
theorem test_shlVxVy_vf : look (·.getV 0xF) (run (bench false 0 [(0xF, 0x80)]) 0x8FEE) = some 1 := by decide

/-! ### Index register and memory -/

/-- V-M1. -/
theorem test_ldI : look (·.index) (run (bench false 0 []) 0xA123) = some 0x123 := by decide
/-- V-M2, V-M3, V-M4. -/
theorem test_addIVx :
    look (fun t => (t.index, t.getV 0xF)) (run (bench false 0x100 [(3, 0x10)]) 0xF31E) = some (0x110, 0x77) ∧
    look (fun t => (t.index, t.getV 0xF))
      (run { bench false 0x100 [(3, 0x10)] with params := { Config.thisHardware with fx1eNoOverflow := .zero } } 0xF31E) =
      some (0x110, 0) ∧
    look (fun t => (t.index, t.getV 0xF)) (run (bench false 0xFFA [(3, 0x10)]) 0xF31E) = some (0x00A, 1) ∧
    look (fun t => (t.index, t.getV 0xF)) (run (bench true 0xFFA [(3, 0x10)]) 0xF31E) = some (0x00A, 0x77) := by decide
/-- V-M5, V-M6. -/
theorem test_addIVx_edges :
    look (fun t => (t.index, t.getV 0xF)) (run (bench false 0xFF8 [(0xF, 0x10)]) 0xFF1E) = some (0x008, 1) ∧
    look (fun t => (t.index, t.getV 0xF)) (run (bench false 0xF00 [(0, 0xFF)]) 0xF01E) = some (0xFFF, 0x77) := by decide
/-- V-M7, V-M8. -/
theorem test_ldFVx :
    look (·.index) (run (bench false 0 [(4, 0x0A)]) 0xF429) = some 0x032 ∧
    look (·.index) (run (bench false 0 [(4, 0x1B)]) 0xF429) = some 0x037 := by decide
/-- V-M9 (S6), V-M11. -/
theorem test_ldBVx :
    look (fun t => (t.loadBytes 0x300 3, t.index)) (run (bench false 0x300 [(5, 0xCD)]) 0xF533) =
      some (some [2, 0, 5], 0x300) ∧
    look (·.loadBytes 0x300 3) (run (bench false 0x300 [(5, 0xFF)]) 0xF533) = some (some [2, 5, 5]) := by decide
/-- V-M12. -/
theorem test_ldBVx_wraps :
    look (·.loadBytes 0xFFE 3) (run (bench false 0xFFE [(5, 0x7B)]) 0xF533) = some (some [1, 2, 3]) ∧
    faultOf (run (bench4095 0xFFE [(5, 0x7B)]) 0xF533) = some .memPanic := by decide
/-- V-M13, V-M14. -/
theorem test_ldMiVx :
    look (fun t => (t.loadBytes 0x300 4, t.index)) (run (bench false 0x300 [(0, 1), (1, 2), (2, 3), (3, 0x44)]) 0xF255) =
      some (some [1, 2, 3, 0], 0x300) ∧
    look (·.index) (run (bench true 0x300 [(0, 1), (1, 2), (2, 3), (3, 0x44)]) 0xF255) = some 0x303 ∧
    look (fun t => (t.memRead 0x300, t.index)) (run (bench true 0x300 [(0, 0x99)]) 0xF055) = some (some 0x99, 0x301) := by
  decide
/-- V-M15. -/
theorem test_ldMiVx_wraps :
    look (fun t => (t.loadBytes 0xFFE 4, t.index)) (run (bench true 0xFFE [(0, 0xA0), (1, 0xA1), (2, 0xA2), (3, 0xA3)]) 0xF355) =
      some (some [0xA0, 0xA1, 0xA2, 0xA3], 0x002) := by decide
/-- V-M16. -/
theorem test_ldVxMi :
    look (fun t => (t.getV 0, t.getV 1, t.getV 2, t.getV 3, t.index))
      (run (poke (bench true 0x300 [(3, 0x44)]) 0x300 [9, 8, 7, 6]) 0xF265) = some (9, 8, 7, 0x44, 0x303) := by decide
/-- V-M17. -/
theorem test_ldVxMi_all :
    look (fun t => (nibbles.map t.getV, t.index))
      (run (poke (bench false 0x300 []) 0x300 ((List.range 16).map (BitVec.ofNat 8))) 0xFF65) =
      some ((List.range 16).map (BitVec.ofNat 8), 0x300) := by decide

/-! ### Random -/

/-- V-R1, V-R3, for every generator. -/
theorem test_rnd (s : State) : look (fun t => (t.getV 3, t.rngState)) (exec (.rnd 3 0xFF) s) =
    some ((Config.rngNext s.rngState).2, (Config.rngNext s.rngState).1) := by
  have h : ∀ b : Byte, b &&& 255#8 = b := by decide
  simp [exec, execRnd, look, State.random, State.complete, State.getV, State.setV, h]
/-- V-R2: the mask is 0. -/
theorem test_rnd_zero (s : State) : look (·.getV 3) (exec (.rnd 3 0x00) s) = some 0 := by
  simp [exec, execRnd, look, State.complete, State.getV, State.setV]

/-! ### Display -/

/-- V-G1. -/
theorem test_cls :
    look (fun t => (pixel t.fb 5 7, t.dirty, t.getV 0xF)) (run { bench false 0 [] with fb := togglePixel blankFrame 5 7 } 0x00E0) =
      some (false, true, 0x77) := by decide
/-- V-G2, V-G3, V-G7, V-G10. -/
theorem test_drw :
    look (fun t => (pixel t.fb 0 0, pixel t.fb 1 0, pixel t.fb 2 0, t.dirty, t.getV 0xF))
      (run (poke (bench false 0x300 []) 0x300 [0xC0]) 0xD011) = some (true, true, false, true, 1) ∧
    look (fun t => (pixel t.fb 0 0, t.getV 0xF))
      (run { poke (bench false 0x300 []) 0x300 [0x80] with fb := togglePixel blankFrame 0 0 } 0xD011) = some (false, 0) ∧
    look (fun t => (t.dirty, t.getV 0xF)) (run (bench false 0x300 []) 0xD010) = some (true, 0) ∧
    look (fun t => (pixel t.fb 5 2, t.getV 0xF))
      (run (poke (bench false 0x300 [(0xF, 0x05), (1, 0x02)]) 0x300 [0x80]) 0xDF11) = some (true, 1) := by decide
/-- V-G4, V-G5, V-G6: columns wrap, rows clip, start coordinates are reduced. -/
theorem test_drw_edges :
    look (fun t => (pixel t.fb 59 0, pixel t.fb 60 0, pixel t.fb 63 0, pixel t.fb 0 0, pixel t.fb 3 0, pixel t.fb 4 0))
      (run (poke (bench false 0x300 [(0, 60)]) 0x300 [0xFF]) 0xD011) = some (false, true, true, true, true, false) ∧
    look (fun t => (pixel t.fb 0 30, pixel t.fb 0 31, pixel t.fb 0 0))
      (run (poke (bench false 0x300 [(1, 30)]) 0x300 [0x80, 0x80, 0x80, 0x80, 0x80]) 0xD015) = some (true, true, false) ∧
    look (fun t => pixel t.fb 6 8) (run (poke (bench false 0x300 [(0, 70), (1, 40)]) 0x300 [0x80]) 0xD011) = some true := by
  decide

/-! ### Timers and keys -/

/-- V-T1, V-T2. -/
theorem test_ldVxDt :
    look (·.getV 3) (run { bench false 0 [] with dt := 0x2A } 0xF307) = some 0x2A ∧
    look (fun t => (t.result, t.getV 3, t.pc, t.faulted))
      (({ bench false 0 [(3, 0x11)] with dt := 0x2A }.placeWord 0xF307).singleStep { busy with runLocked := false }) =
      some (.delayTimerLocked, 0x11, 0x202, false) := by decide
/-- V-T6, V-T9, V-T11: no key is pressed. -/
theorem test_ldVxK_waits :
    look (fun t => (t.pc, t.getV 5)) (run (bench false 0 []) 0xF50A) = some (0x200, 0) ∧
    look (·.pc) (run { bench false 0 [] with pc := 0xFFE } 0xF50A) = some 0xFFE ∧
    look (·.pc) (run ((bench false 0 []).release 7) 0xF50A) = some 0x200 := by decide
/-- V-T7, V-T8. -/
theorem test_ldVxK :
    look (fun t => (t.getV 5, t.pc)) (run ((bench false 0 []).press 7) 0xF50A) = some (7, 0x202) ∧
    [0, 1, 2].map (fun k => look (·.getV 5)
      (((((bench false 0 []).press 3).press 9).placeWord 0xF50A).singleStep { calm with keyChoice := k })) =
      [some 3, some 9, some 3] := by decide
/-- V-T3. -/
theorem test_ldDtVx : look (·.dt) (run (bench false 0 [(3, 0x3C)]) 0xF315) = some 0x3C := by decide
/-- V-T4, V-T5. -/
theorem test_ldStVx :
    look (fun t => (t.st, t.soundCalls)) (run (bench false 0 [(0, 3)]) 0xF018) = some (3, []) ∧
    look (fun t => (t.result, t.st))
      (((bench false 0 [(0, 3)]).placeWord 0xF018).singleStep { busy with runLocked := false }) =
      some (.soundTimerLocked, 0) := by decide

/-! ### Ticks and host operations -/

/-- V-H1, V-H2, V-H5. -/
theorem test_delayTick :
    look (·.dt) (perform .delayTick { bench false 0 [] with dt := 1 }) = some 0 ∧
    look (·.dt) (perform .delayTick (bench false 0 [])) = some 0 ∧
    look (fun t => (t.dt, t.delayLive)) (perform .delayTick { bench false 0 [] with run := false, dt := 5 }) =
      some (5, false) := by decide
/-- V-H3, V-H4. -/
theorem test_soundTick :
    look (fun t => (t.soundOut, t.st, t.soundCalls)) (perform .soundTick { bench false 0 [] with st := 1 }) =
      some (.playing, 0, [.playing]) ∧
    look (fun t => (t.soundOut, t.st, t.soundCalls)) (perform .soundTick (bench false 0 [])) =
      some (.paused, 0, [.paused]) := by decide
/-- S8: play, play, play, pause. -/
theorem test_sound_sequence :
    (State.soundTick (State.soundTick (State.soundTick (State.soundTick { bench false 0 [] with st := 3 })))).soundCalls =
      [.paused, .playing, .playing, .playing] := by decide
/-- V-H7, V-H8. -/
theorem test_start :
    look (fun t => (t.run, t.pc, t.getV 1, t.dt, t.delayLive))
      (perform (.start false) { State.construct false Config.thisHardware 0 with pc := 0x345, dt := 4 }) =
      some (true, 0x200, 0, 4, true) ∧
    refusalOf (perform (.start false) (bench false 0 [])) = some .startWhileRunning := by decide
/-- V-H9. -/
theorem test_stop :
    look (fun t => (t.run, t.faulted)) (perform (.stop true true) { bench false 0 [] with faulted := true }) =
      some (false, false) ∧
    look (fun t => (t.dt, t.st, t.soundCalls)) (perform (.stop true true) { bench false 0 [] with dt := 5, st := 2 }) =
      some (4, 1, [.playing]) ∧
    look (fun t => (t.dt, t.st, t.soundCalls)) (perform (.stop false false) { bench false 0 [] with dt := 5, st := 2 }) =
      some (5, 2, []) ∧
    look (fun t => (t.delayLive, t.soundLive)) (perform (.stop false false) (bench false 0 [])) = some (false, false) := by
  decide
/-- V-H11. -/
theorem test_hexLoad :
    look (·.loadBytes 0x300 3)
      (perform (.hexLoad 0x300 ['f', '0', ' ', '9', '-', '0', ' ', 'z', '9']) (State.construct false Config.thisHardware 0)) =
      some (some [0xF0, 0x90, 0x00]) := by decide
/-- Program P1's image (95_test_vectors.md section 3). -/
theorem test_loadProgram :
    look (·.loadBytes 0x200 6) (perform (.loadProgram [0x60, 0x05, 0x61, 0x03, 0x80, 0x14]) (State.construct false Config.thisHardware 0)) =
      some (some [0x60, 0x05, 0x61, 0x03, 0x80, 0x14]) := by decide
/-- V-H12. -/
theorem test_frameReset :
    look (fun t => (t.key 4, t.key 5)) (perform .frameReset (((bench false 0 []).release 4).press 5)) =
      some (.untouched, .pressed) := by decide
/-- V-H13. -/
theorem test_clearDirty : look (·.dirty) (perform .clearDirty { bench false 0 [] with dirty := true }) = some false := by
  decide

/-! ### Witnesses: a concrete state and operands that meet all hypotheses of each obligation, clause by clause -/

/-- `s` after an engine step or instruction that has a next state. -/
def after (a : Answer) (s : State) : State :=
  match a with
  | .next t => t
  | _ => s

/-- A running machine of either `QUIRK` may step, with and without a contention draw where none is admitted. -/
theorem witness_ready (quirk : Bool) :
    (bench quirk 0 []).Ready calm ∧
    { bench quirk 0 [] with params := { Config.thisHardware with lockContention := false } }.Ready busy :=
  ⟨⟨by cases quirk <;> rfl, by cases quirk <;> rfl, .inr rfl⟩, ⟨by cases quirk <;> rfl, by cases quirk <;> rfl, .inl rfl⟩⟩

theorem witness_DecodeOfEncode : (Instr.sys 0xFFF).wellFormed = true ∧ (Instr.drw 0xF 0xF 0xF).wellFormed = true := by decide
theorem witness_EncodeOfDecode : decodeWord 0x0FFF = .ok (.sys 0xFFF) ∧ decodeWord 0xFF65 = .ok (.ldVxMi 0xF) := by decide
theorem witness_RejectedWords :
    (∀ i, decodeWord 0x8008 ≠ .ok i) ∧ decodeWord 0x8007 = .ok (.subnVxVy 0 0) ∧ (∀ i, decodeWord 0xFFFF ≠ .ok i) := by
  refine ⟨fun i h => ?_, by decide, fun i h => ?_⟩
  · have h' : Decoded.rejected .illegal8XYn = .ok i := h
    cases h'
  · have h' : Decoded.rejected .illegalFXkk = .ok i := h
    cases h'
theorem witness_StepPerformsTheNextEvent :
    { bench false 0 [] with inputs := [.delayTick, .soundTick] }.inputs = .delayTick :: [.soundTick] ∧
    State.reset.inputs = [] := ⟨rfl, rfl⟩
/-- Both at 0x200 and where the instruction wraps round the end of memory. -/
theorem witness_StepRunsTheDecodedInstruction :
    (∃ (s : State) (d : Draws) (rest : List Event) (hi lo : Byte) (i : Instr),
      s.inputs = .singleStep d :: rest ∧ s.Ready d ∧ s.memRead s.pc.toNat = some hi ∧
      s.memRead (s.pc.toNat + 1) = some lo ∧ decodeBytes [hi, lo] = .ok i ∧ s.pc = 0x200) ∧
    (∃ (s : State) (d : Draws) (rest : List Event) (hi lo : Byte) (i : Instr),
      s.inputs = .singleStep d :: rest ∧ s.Ready d ∧ s.memRead s.pc.toNat = some hi ∧
      s.memRead (s.pc.toNat + 1) = some lo ∧ decodeBytes [hi, lo] = .ok i ∧ s.pc = 0xFFF) :=
  ⟨⟨{ (bench false 0 []).placeWord 0x6A5C with inputs := [.singleStep calm] }, calm, [], 0x6A, 0x5C, .ldVxKk 0xA 0x5C,
    rfl, ⟨rfl, rfl, .inr rfl⟩, by decide, by decide, by decide, by decide⟩,
   ⟨{ poke (bench false 0 [] |>.setPc 0xFFF) 0xFFF [0x60] with inputs := [.singleStep calm] }, calm, [], 0x60, 0xF0,
    .ldVxKk 0x0 0xF0, rfl, ⟨rfl, rfl, .inr rfl⟩, by decide, by decide, by decide, by decide⟩⟩
theorem witness_StoppedStep : State.reset.faulted = false ∧ State.reset.run = false := ⟨rfl, rfl⟩
theorem witness_GatedSteps :
    { bench false 0 [] with faulted := true }.faulted = true ∧
    ((bench false 0 []).faulted = false ∧ (bench false 0 []).run = true ∧ (bench false 0 []).params.lockContention = true ∧
      busy.runLocked = true) ∧
    ((bench4095 0 [] |>.setPc 0xFFE).Ready calm ∧
      (bench4095 0 [] |>.setPc 0xFFE).fetch16 (bench4095 0 [] |>.setPc 0xFFE).pc.toNat = none) :=
  ⟨rfl, ⟨rfl, rfl, rfl, rfl⟩, ⟨rfl, rfl, .inr rfl⟩, by decide⟩
theorem witness_IllegalWord : ∃ (s : State) (d : Draws) (hi lo : Byte), s.Ready d ∧ s.memRead s.pc.toNat = some hi ∧
    s.memRead (s.pc.toNat + 1) = some lo ∧ ∀ i, decodeBytes [hi, lo] ≠ .ok i :=
  ⟨(bench false 0 []).placeWord 0x5121, calm, 0x51, 0x21, ⟨rfl, rfl, .inr rfl⟩, by decide, by decide, fun i h => by
    have h' : Decoded.rejected .illegal5XYn = .ok i := h
    cases h'⟩
/-- V-F2: 1200 at 0x200. -/
theorem witness_SelfJump : ((bench false 0 []).placeWord 0x1200).Ready calm ∧ ((bench false 0 []).placeWord 0x1200).AtSelfJump :=
  ⟨⟨rfl, rfl, .inr rfl⟩, 0x200, by decide, by decide⟩
/-- R138: each way a run ends, as an engine step and as a step of the machine: V-F2's self-jump, and V-F10's underflow. -/
theorem witness_EndsRun :
    (∃ (s : State) (d : Draws) (t : State), EndsRun s d t ∧ s.AtSelfJump ∧ t.result = .none) ∧
    (∃ (s : State) (d : Draws) (t : State), EndsRun s d t ∧ t.result = .stackUnderflow) ∧
    (∃ s t : State, StepEndsRun s t) :=
  ⟨⟨(bench false 0 []).placeWord 0x1200, calm, _, ⟨rfl, .inl ⟨witness_SelfJump.2, rfl⟩⟩, witness_SelfJump.2, rfl⟩,
   ⟨(bench false 0 []).placeWord 0x00EE, calm, _, ⟨rfl, .inr rfl⟩, rfl⟩,
   ⟨{ (bench false 0 []).placeWord 0x00EE with inputs := [.singleStep calm] }, _, calm, rfl, rfl, .inr rfl⟩⟩
/-- R138: at a self-jump with `None` returned before, neither a tick nor an engine step turned away ends the run. -/
theorem test_EndsRun_not :
    (∀ t, ¬ StepEndsRun { (bench false 0 []).placeWord 0x1200 with inputs := [.delayTick] } t) ∧
    (∀ t, ¬ EndsRun ((bench false 0 []).placeWord 0x1200) busy t) := by
  refine ⟨?_, ?_⟩
  · rintro t ⟨d, h, -⟩
    cases h
  · rintro t ⟨h, h'⟩
    cases h
    rcases h' with ⟨-, h'⟩ | h' <;> cases h'
/-- Each error kind an instruction raises. -/
theorem witness_RaisedErrors :
    look (·.result) (exec .ret (bench false 0 [])) = some .stackUnderflow ∧
    look (·.result) (exec (.call 0) { bench false 0 [] with stack := List.replicate 16 0 }) = some .stackOverflow ∧
    look (·.result) (exec (.ldVxDt 0) { bench false 0 [] with draws := busy }) = some .delayTimerLocked ∧
    look (·.result) (exec (.ldDtVx 0) { bench false 0 [] with draws := busy }) = some .delayTimerLocked ∧
    look (·.result) (exec (.ldStVx 0) { bench false 0 [] with draws := busy }) = some .soundTimerLocked := by decide
theorem witness_EveryInstructionRuns : State.reset.params.memModel = .m4096 := rfl
/-- Each side of each equivalence, at the boundary. -/
theorem witness_MissingByte :
    [0xFFC, 0xFFD, 0xFFF].map (fun i => faultOf (exec (.ldBVx 0) (bench4095 i []))) = [none, some .memPanic, some .memPanic] ∧
    [0xFFD, 0xFFE].map (fun i => faultOf (exec (.ldMiVx 1) (bench4095 i []))) = [none, some .memPanic] ∧
    [0xFFD, 0xFFE].map (fun i => faultOf (exec (.ldVxMi 1) (bench4095 i []))) = [none, some .memPanic] ∧
    [0, 30, 31].map (fun y => faultOf (exec (.drw 0 1 2) (bench4095 0xFFE [(1, y)]))) =
      [some .memPanic, some .memPanic, none] := by decide
theorem witness_Return :
    { bench false 0 [] with stack := [0x20A, 0x202] }.stack = 0x20A :: [0x202] ∧ (bench false 0 []).stack = [] := ⟨rfl, rfl⟩
theorem witness_Jumps : (0x0E1 : Addr) ≠ 0x0E0 ∧ (0x0E1 : Addr) ≠ 0x0EE ∧ (0x0E1 : Addr) ≠ 0x0FD := by decide
/-- 0 and 15 entries and an unbounded stack of 16 are not full; 16 entries are, and so is an empty stack of depth 0. -/
theorem witness_Call :
    (bench false 0 []).params.stackDepth ≠ some (bench false 0 []).stack.length ∧
    (∃ s : State, s.stack.length = 15 ∧ s.params.stackDepth ≠ some s.stack.length) ∧
    (∃ s : State, s.stack.length = 16 ∧ s.params.stackDepth ≠ some s.stack.length) ∧
    (∃ s : State, s.stack.length = 16 ∧ s.params.stackDepth = some s.stack.length) ∧
    (∃ s : State, s.stack.length = 0 ∧ s.params.stackDepth = some s.stack.length) :=
  ⟨by decide, ⟨{ bench false 0 [] with stack := List.replicate 15 0 }, by decide, by decide⟩,
   ⟨{ bench false 0 [] with stack := List.replicate 16 0, params := { Config.thisHardware with stackDepth := none } },
     by decide, by decide⟩,
   ⟨{ bench false 0 [] with stack := List.replicate 16 0 }, by decide, by decide⟩,
   ⟨{ bench false 0 [] with params := { Config.thisHardware with stackDepth := some 0 } }, by decide, by decide⟩⟩
/-- S3b. -/
theorem witness_ReturnUndoesCall : ∃ (nnn : Addr) (s t u : State), s.pc.toNat < 0x1000 ∧
    s.params.stackDepth ≠ some s.stack.length ∧ exec (.call nnn) s = .next t ∧ u.stack = t.stack :=
  ⟨0x400, bench false 0 [], after (exec (.call 0x400) (bench false 0 [])) (bench false 0 []),
    after (exec (.call 0x400) (bench false 0 [])) (bench false 0 []), by decide, by decide, rfl, rfl⟩
theorem witness_RegisterSkips : (0x1 : Nibble) ≠ 0 ∧ (0xF : Nibble) ≠ 0 := by decide
/-- V-S13's state with each of the six skip words at 0xFFE, three of them taken. -/
theorem witness_SkipCounts : ∀ p ∈ [(0x3000, Instr.seVxKk 0 0), (0x4000, .sneVxKk 0 0), (0x5000, .seVxVy 0 0), (0x9000, .sneVxVy 0 0),
      (0xE09E, .skp 0), (0xE0A1, .sknp 0)],
    ({ bench false 0 [] with pc := 0xFFE }.placeWord p.1).Ready calm ∧
    ({ bench false 0 [] with pc := 0xFFE }.placeWord p.1).fetch16 0xFFE = some p.1 ∧ decodeWord p.1 = .ok p.2 := by
  intro p hp
  simp only [List.mem_cons, List.not_mem_nil, or_false] at hp
  rcases hp with rfl | rfl | rfl | rfl | rfl | rfl <;> exact ⟨⟨rfl, rfl, .inr rfl⟩, by decide, by decide⟩
theorem witness_LoadsAndLogic (s : State) : (Instr.orVxVy 1 2, s.getV 1 ||| s.getV 2) ∈
    [(Instr.ldVxKk 1 3, 3), (Instr.ldVxVy 1 2, s.getV 2), (Instr.orVxVy 1 2, s.getV 1 ||| s.getV 2),
      (Instr.andVxVy 1 2, s.getV 1 &&& s.getV 2), (Instr.xorVxVy 1 2, s.getV 1 ^^^ s.getV 2)] := by simp
theorem witness_JumpTargets : Instr.jp 0xABC ∈ [Instr.sys 0xABC, Instr.jp 0xABC] := by decide
theorem witness_IndexLoads (s : State) : (Instr.ldFVx 4, 5 * ((s.getV 4).toNat % 16)) ∈
    [(Instr.ldI 0xFFF, (0xFFF : Addr).toNat), (Instr.ldFVx 4, 5 * ((s.getV 4).toNat % 16))] := by simp
/-- Each value of the flag, at the boundary of its range. -/
theorem witness_AddSetsCarry : (0x1 : Nibble) ≠ 0xF ∧
    look (·.getV 0xF) (exec (.addVxVy 1 2) (bench false 0 [(1, 0xFF), (2, 0x00)])) = some 0 ∧
    look (·.getV 0xF) (exec (.addVxVy 1 2) (bench false 0 [(1, 0xFF), (2, 0x01)])) = some 1 := by decide
theorem witness_Shifts (quirk : Bool) : 0x05 = (if (bench quirk 0 [(1, 0x05), (2, 0x05)]).quirk then
    (bench quirk 0 [(1, 0x05), (2, 0x05)]).getV 2 else (bench quirk 0 [(1, 0x05), (2, 0x05)]).getV 1).toNat := by
  cases quirk <;> decide
/-- One instruction of each named group changes VF. -/
theorem witness_WritesVF : [Instr.addVxVy 1 1, .drw 0 0 0, .addIVx 1, .ldVxKk 0xF 0].map (fun i =>
    look (fun t => decide (t.getV 0xF ≠ (bench false 0xFFF [(1, 0x01)]).getV 0xF)) (exec i (bench false 0xFFF [(1, 0x01)]))) =
    [some true, some true, some true, some true] := by decide
theorem witness_AddToIndex : 0x1000 = (bench false 0xF01 [(0, 0xFF)]).index.toNat + ((bench false 0xF01 [(0, 0xFF)]).getV 0).toNat ∧
    0xFFF = (bench false 0xF00 [(0, 0xFF)]).index.toNat + ((bench false 0xF00 [(0, 0xFF)]).getV 0).toNat := by decide
/-- A byte stands at 0xFFF under M4096, at 0xFFE and 0x1000 under M4095. -/
theorem witness_ByteWrite : (bench false 0 []).backed 0xFFF = true ∧ (bench4095 0 []).backed 0xFFE = true ∧
    (bench4095 0 []).backed 0x1000 = true ∧ (bench4095 0 []).backed 0xFFF = false := by decide
/-- A word at 0xFFF under M4096; under M4095 one at 0xFFD, and none at 0xFFE and 0xFFF. -/
theorem witness_Fetch : (bench false 0 []).fetch16 0xFFF = some 0x00F0 ∧ (bench4095 0 []).fetch16 0xFFD = some 0x0000 ∧
    (bench4095 0 []).fetch16 0xFFE = none ∧ (bench4095 0 []).fetch16 0xFFF = none := by decide
/-- Every byte of a 3-byte access exists, in each memory model, up to the last address. -/
theorem witness_Decimal : (∀ k, k < 3 → (bench false 0xFFE []).backed ((bench false 0xFFE []).index.toNat + k) = true) ∧
    (∀ k, k < 3 → (bench4095 0xFFC []).backed ((bench4095 0xFFC []).index.toNat + k) = true) := by decide
/-- The same for `X = 0xF` and `X = 0`. -/
theorem witness_RegisterTransfers :
    (∀ k, k ≤ (0xF : Nibble).toNat → (bench true 0xFF8 []).backed ((bench true 0xFF8 []).index.toNat + k) = true) ∧
    (∀ k, k ≤ (0x0 : Nibble).toNat → (bench4095 0xFFE []).backed ((bench4095 0xFFE []).index.toNat + k) = true) := by decide
/-- S5, with `QUIRK` true and the index register set back. -/
theorem witness_StoredRegistersLoadBack : ∃ (x : Nibble) (s t u : State), exec (.ldMiVx x) s = .next t ∧
    u.mem = t.mem ∧ u.params = t.params ∧ u.index = s.index ∧ s.quirk = true ∧ u.getV 1 ≠ s.getV 1 :=
  ⟨3, bench true 0x300 [(0, 0x11), (1, 0x22), (2, 0x33), (3, 0x44)], _,
    { after (exec (.ldMiVx 3) (bench true 0x300 [(0, 0x11), (1, 0x22), (2, 0x33), (3, 0x44)])) (bench true 0 []) with
      v := Vector.replicate 16 0, index := 0x300 },
    rfl, rfl, rfl, by decide, rfl, by decide⟩
theorem witness_OnlyStores : look (fun t => decide (t.mem ≠ (bench false 0x300 [(5, 0xCD)]).mem))
    (exec (.ldBVx 5) (bench false 0x300 [(5, 0xCD)])) = some true := by decide
/-- Both clauses: an engine step at C300, and a tick. -/
theorem witness_Generator :
    (∃ (e : Event) (s t : State), perform e s = .next t ∧
      ∃ d w x kk, e = .singleStep d ∧ s.Ready d ∧ s.fetch16 s.pc.toNat = some w ∧ decodeWord w = .ok (.rnd x kk)) ∧
    (∃ (e : Event) (s t : State), perform e s = .next t ∧
      ¬ ∃ d w x kk, e = .singleStep d ∧ s.Ready d ∧ s.fetch16 s.pc.toNat = some w ∧ decodeWord w = .ok (.rnd x kk)) := by
  refine ⟨⟨.singleStep calm, (bench false 0 []).placeWord 0xC300, _, rfl, calm, 0xC300, 3, 0, rfl, ⟨rfl, rfl, .inr rfl⟩,
    by decide, by decide⟩, ⟨.delayTick, bench false 0 [], _, rfl, ?_⟩⟩
  rintro ⟨d, w, x, kk, h, -⟩
  cases h
/-- Under M4095 too, where the row that would read 0xFFF is clipped. -/
theorem witness_Draw :
    (∀ k, k < (2 : Nibble).toNat → ((bench false 0xFFF []).getV 1).toNat % 32 + k < 32 →
      (bench false 0xFFF []).backed ((bench false 0xFFF []).index.toNat + k) = true) ∧
    (∀ k, k < (2 : Nibble).toNat → ((bench4095 0xFFE [(1, 31)]).getV 1).toNat % 32 + k < 32 →
      (bench4095 0xFFE [(1, 31)]).backed ((bench4095 0xFFE [(1, 31)]).index.toNat + k) = true) := by decide
/-- A state of S4: pixel (0, 0) on, sprite byte 0xC0. -/
def drawn : State := { poke (bench false 0x300 []) 0x300 [0xC0] with fb := togglePixel blankFrame 0 0 }
/-- S4: the clauses on set, clear and colliding pixels all have their case. -/
theorem witness_SpriteBit : drawn.SpriteBit 0 1 1 0 0 ∧ drawn.SpriteBit 0 1 1 1 0 ∧ ¬ drawn.SpriteBit 0 1 1 2 0 ∧
    pixel drawn.fb 0 0 = true ∧ pixel drawn.fb 1 0 = false := by
  refine ⟨⟨0, 0, by decide⟩, ⟨0, 1, by decide⟩, ?_, by decide, by decide⟩
  rintro ⟨r, c, hr, hc, hy, hx, hb⟩
  have hr0 : r = 0 := by
    have : (1 : Nibble).toNat = 1 := rfl
    omega
  subst hr0
  have hx' : ((drawn.getV 0).toNat % 64 + c) % 64 = 2 := hx.symm
  have h0 : (drawn.getV 0).toNat = 0 := by decide
  have hc2 : c = 2 := by omega
  subst hc2
  revert hb
  decide
theorem witness_DrawingTwice : ∃ (x y n : Nibble) (s t u : State), x ≠ 0xF ∧ y ≠ 0xF ∧ exec (.drw x y n) s = .next t ∧
    exec (.drw x y n) t = .next u ∧ s.params.collisionSense = .offToOn ∧ s.SpriteBit x y n 0 0 ∧ pixel s.fb 0 0 = true :=
  ⟨0, 1, 1, drawn, after (exec (.drw 0 1 1) drawn) drawn, after (exec (.drw 0 1 1) (after (exec (.drw 0 1 1) drawn) drawn)) drawn,
    by decide, by decide, rfl, rfl, rfl, witness_SpriteBit.1, witness_SpriteBit.2.2.2.1⟩
/-- Each clause; the first in both its forms. -/
theorem witness_CounterAccess :
    (bench false 0 []).draws.counterLocked = false ∧
    { bench false 0 [] with params := { Config.thisHardware with lockContention := false }, draws := busy }.params.lockContention =
      false ∧
    ({ bench false 0 [] with draws := busy }.params.lockContention = true ∧
      { bench false 0 [] with draws := busy }.draws.counterLocked = true) := by decide
theorem witness_KeyWait : (∃ k, ((bench false 0 []).press 0xF).key k = .pressed) ∧
    (∀ k, ((bench false 0 []).release 7).key k ≠ .pressed) := ⟨⟨0xF, by decide⟩, by decide⟩
/-- V-T9: at 0xFFE. -/
theorem witness_KeyWaitStays : ∃ (s : State) (d : Draws) (x : Nibble), s.Ready d ∧ s.pc.toNat < 0x1000 ∧
    s.fetch16 s.pc.toNat = some (0xF#4 ++ x ++ 0x0A#8) ∧ (∀ k, s.key k ≠ .pressed) ∧ s.pc = 0xFFE :=
  ⟨{ bench false 0 [] with pc := 0xFFE }.placeWord 0xF50A, calm, 5, ⟨rfl, rfl, .inr rfl⟩, by decide, by decide, by decide, rfl⟩
/-- Each clause of the two tick statements: running, stopped with live agents, and agents not live. -/
theorem witness_Ticks :
    ((bench false 0 []).run = true ∧ (bench false 0 []).delayLive = true ∧ (bench false 0 []).soundLive = true) ∧
    ({ bench false 0 [] with run := false }.run = false ∧ { bench false 0 [] with run := false }.delayLive = true ∧
      { bench false 0 [] with run := false }.soundLive = true) ∧
    (State.reset.delayLive = false ∧ State.reset.soundLive = false) := ⟨⟨rfl, rfl, rfl⟩, ⟨rfl, rfl, rfl⟩, rfl, rfl⟩
/-- The bounds of the sound clause: `ST` at 0 and at 3. -/
theorem witness_SoundPlays : 0 ≤ (bench false 0 []).st.toNat ∧ 3 ≤ { bench false 0 [] with st := 3 }.st.toNat := by decide
/-- A tick, a stop with a trailing tick, and the two instructions change their counter; a sound tick and a stop make a call. -/
theorem witness_CounterWriters :
    look (fun t => decide (t.soundCalls ≠ [])) (perform .soundTick (bench false 0 [])) = some true ∧
    look (fun t => decide (t.soundCalls ≠ [])) (perform (.stop false true) (bench false 0 [])) = some true ∧
    look (fun t => decide (t.dt ≠ 5 ∧ t.st = 2)) (perform .delayTick { bench false 0 [] with dt := 5, st := 2 }) = some true ∧
    look (fun t => decide (t.dt = 5 ∧ t.st ≠ 2)) (perform .soundTick { bench false 0 [] with dt := 5, st := 2 }) = some true ∧
    look (fun t => decide (t.dt ≠ 5 ∧ t.st ≠ 2)) (perform (.stop true true) { bench false 0 [] with dt := 5, st := 2 }) =
      some true ∧
    look (fun t => decide (t.dt ≠ 0)) (perform (.singleStep calm) ((bench false 0 [(3, 9)]).placeWord 0xF315)) = some true ∧
    look (fun t => decide (t.st ≠ 0)) (perform (.singleStep calm) ((bench false 0 [(3, 9)]).placeWord 0xF318)) = some true := by
  decide
/-- Each of the three clauses of `start`; the running machine also for the two loads. -/
theorem witness_Start : (State.reset.run = false ∧ false = false) ∧
    (State.reset.run = false ∧ State.reset.params.lockContention = true ∧ true = true) ∧ (bench false 0 []).run = true :=
  ⟨⟨rfl, rfl⟩, ⟨rfl, rfl, rfl⟩, rfl⟩
theorem witness_RunChanges :
    look (·.run) (perform (.start false) (State.construct false Config.thisHardware 0)) = some true ∧
    look (·.run) (perform (.stop false false) (bench false 0 [])) = some false := by decide
/-- Bytes at 0x200 under each memory model, and an address, 0x202, that none of them falls on. -/
theorem witness_LoadedProgram : (State.construct false Config.thisHardware 0).run = false ∧
    (∀ k, k < [0x60#8, 0x05#8].length → (State.construct false Config.thisHardware 0).backed (0x200 + k) = true) ∧
    (∀ k, k < [0x60#8, 0x05#8].length → (State.construct false params4095 0).backed (0x200 + k) = true) ∧
    (∀ j, 0 < j → j < [0x60#8, 0x05#8].length → (0x200 + j) % 0x1000 ≠ (0x200 + 0) % 0x1000) ∧
    (∀ k, k < [0x60#8, 0x05#8].length → 0x202 % 0x1000 ≠ (0x200 + k) % 0x1000) := by
  refine ⟨by decide, by decide, by decide, fun j h1 h2 => ?_, by decide⟩
  have : [0x60#8, 0x05#8].length = 2 := rfl
  omega
/-- A load of bytes one of which has no place, under M4095. -/
theorem witness_LoadPanics : (State.construct false params4095 0).run = false ∧
    (∃ k, k < (List.replicate 0xE00 0x00#8).length ∧ (State.construct false params4095 0).backed (0x200 + k) = false) ∧
    (∃ k, k < (hexBytes ['F', '0']).length ∧ (State.construct false params4095 0).backed (0xFFF + k) = false) :=
  ⟨rfl, ⟨0xDFF, by rw [List.length_replicate]; decide, by decide⟩, ⟨0, by decide, by decide⟩⟩
theorem witness_HexText : hexDigit? ' ' = none ∧ hexDigit? 'g' = none ∧ hexDigit? 'F' = some 0xF ∧ hexDigit? 'a' = some 0xA ∧
    hexDigit? '0' = some 0x0 ∧ hexDigit? '9' = some 0x9 ∧ [0xF0#8, 0x90#8] = hexBytes ['F', '0', '9', '0', '1'] ∧
    (State.construct false Config.thisHardware 0).run = false ∧
    (∀ k, k < [0xF0#8, 0x90#8].length → (State.construct false Config.thisHardware 0).backed (0xFFF + k) = true) := by decide
theorem witness_KeyEvents : (0x4 : Nibble) ≠ 0x5 := by decide
theorem witness_ConstructionValues : ∃ (quirk : Bool) (params : Params) (seed : Seed) (s : State),
    s = State.construct quirk params seed := ⟨true, params4095, 7, _, rfl⟩
/-- The invariant, and a step from a state that meets it. -/
theorem witness_StepKeepsTheInvariant : ∃ s t : State, s.Inv ∧ step s = .next t ∧ s.run = true ∧ s.stack = [0x202] := by
  refine ⟨{ bench false 0x300 [] with stack := [0x202], inputs := [.soundTick] }, _, ?_, rfl, rfl, rfl⟩
  exact ⟨by decide, by decide, by decide, fun a h => by cases List.mem_singleton.1 h; decide,
    fun d h => by cases h; decide, rfl, rfl, fun _ => rfl, rfl, by decide⟩
theorem witness_ParametersNeverChange : ∃ s t : State, step s = .next t :=
  ⟨{ bench true 0 [] with inputs := [.delayTick] }, _, rfl⟩

end Sys2Proof.Tests
end

section
/-! SUPPORT. All that an instruction can do: the error it raises, or the state its completed body leaves. Every frame
and invariant of `exec` is read off `exec_next`, without unfolding a meaning again. -/

namespace Sys2Proof.Machine

/-- The error kinds that an instruction raises from `s` (60_exceptions.md R112). -/
inductive State.Raises (s : State) : Instr → ErrorKind → Prop
  | underflow (hs : s.stack = []) : s.Raises .ret .stackUnderflow
  | overflow {nnn : Addr} (hs : s.stackFull = true) : s.Raises (.call nnn) .stackOverflow
  | delayLocked {i : Instr} (x : Nibble) (hi : i ∈ [Instr.ldVxDt x, .ldDtVx x]) : s.Raises i .delayTimerLocked
  | soundLocked {x : Nibble} : s.Raises (.ldStVx x) .soundTimerLocked

/-- The six skip instructions with the given operands (42_skip.md). -/
def skips (x y : Nibble) (kk : Byte) : List Instr :=
  [.seVxKk x kk, .sneVxKk x kk, .seVxVy x y, .sneVxVy x y, .skp x, .sknp x]

/-- What the body of an instruction that completes leaves of `s`, before `complete` notes the returned kind. -/
inductive State.Leaves (s : State) : Instr → State → Prop
  | unchanged {i : Instr} (x y : Nibble) (kk : Byte) (hi : i ∈ .nop :: skips x y kk) : s.Leaves i s
  | skip {i : Instr} (x y : Nibble) (kk : Byte) (hi : i ∈ skips x y kk) : s.Leaves i s.skip
  | jump {i : Instr} (nnn : Addr) (n : Nat) (hi : i ∈ [Instr.sys nnn, .jp nnn, .jpV0 nnn]) : s.Leaves i (s.setPc n)
  | stepBack {x : Nibble} (n : Nat) (hn : n = s.pc.toNat + 0x1000 - 2) : s.Leaves (.ldVxK x) (s.setPc n)
  | ret {v : Word} {rest : List Word} (hs : s.stack = v :: rest) :
      s.Leaves .ret ({ s with stack := rest }.setPc v.toNat)
  | call {nnn : Addr} (hs : s.stackFull = false) : s.Leaves (.call nnn) ((s.push s.pc).setPc nnn.toNat)
  | clear : s.Leaves .cls { s with fb := blankFrame, dirty := true }
  | draw {x y n : Nibble} (canvas : Canvas) : s.Leaves (.drw x y n) (s.finishDraw canvas)
  | register {i : Instr} (x y : Nibble) (kk b : Byte) (hi : i ∈ [Instr.ldVxKk x kk, .addVxKk x kk, .ldVxVy x y,
      .orVxVy x y, .andVxVy x y, .xorVxVy x y, .ldVxDt x, .ldVxK x]) : s.Leaves i (s.setV x b)
  | resultAndFlag {i : Instr} (x y : Nibble) (r f : Byte) (hi : i ∈ [Instr.addVxVy x y, .subVxVy x y, .shrVxVy x y,
      .subnVxVy x y, .shlVxVy x y]) : s.Leaves i (s.setResultAndFlag x r f)
  | random {x : Nibble} {kk : Byte} : s.Leaves (.rnd x kk) (s.random.2.setV x (s.random.1 &&& kk))
  | setDt {x : Nibble} : s.Leaves (.ldDtVx x) { s with dt := s.getV x }
  | setSt {x : Nibble} : s.Leaves (.ldStVx x) { s with st := s.getV x }
  | setIndex {i : Instr} (nnn : Addr) (x : Nibble) (n : Nat) (hi : i ∈ [Instr.ldI nnn, .ldFVx x, .addIVx x]) :
      s.Leaves i (s.setIndex n)
  | overflowFlag {x : Nibble} (n : Nat) (b : Byte) (hq : s.quirk = false) :
      s.Leaves (.addIVx x) ((s.setIndex n).setV vf b)
  | digits {x : Nibble} (m : Memory) (hm : s.mem.wf → m.wf) : s.Leaves (.ldBVx x) { s with mem := m }
  | store {x : Nibble} (m : Memory) (hm : s.mem.wf → m.wf) :
      s.Leaves (.ldMiVx x) { s with mem := m, index := (s.advanceIndex x).index }
  | load {x : Nibble} (v : Vector Byte 16)
      (hv : ∀ r : Nibble, x.toNat < r.toNat → { s with v := v }.getV r = s.getV r) :
      s.Leaves (.ldVxMi x) { s with v := v, index := (s.advanceIndex x).index }

/-- `t` is a next state of the instruction `i` from `s`: an error and nothing else, or what a completed body leaves. -/
inductive State.ExecTo (s : State) (i : Instr) (t : State) : Prop
  | raised {e : ErrorKind} (hr : s.Raises i e) (ht : t = { s with result := e, faulted := s.faulted || e.fatal })
  | completed {u : State} (hu : s.Leaves i u) (ht : t = { u with result := .none })

variable {i : Instr} {s t u : State}

/-! ### How the shared endings answer a next state -/

theorem State.complete_next (h : u.complete = .next t) : t = { u with result := .none } :=
  (Host.Outcome.next.inj h).symm

theorem State.raise_next {e : ErrorKind} (h : s.raise e = .next t) :
    t = { s with result := e, faulted := s.faulted || e.fatal } :=
  (Host.Outcome.next.inj h).symm

theorem completeAccess_next {o : Option State} (h : completeAccess o = .next t) :
    ∃ u, o = some u ∧ t = { u with result := .none } := by
  cases o with
  | none => cases h
  | some u => exact ⟨u, rfl, State.complete_next h⟩

theorem State.counterAccess_next {e : ErrorKind} (h : s.counterAccess e u = .next t) (hr : s.Raises i e)
    (hu : s.Leaves i u) : s.ExecTo i t := by
  rw [State.counterAccess_spec] at h
  split at h
  · exact .raised hr (State.raise_next h)
  · exact .completed hu (State.complete_next h)

theorem State.skipIf_next {x y : Nibble} {kk : Byte} {c : Bool} (h : s.skipIf c = .next t) (hi : i ∈ skips x y kk) :
    s.ExecTo i t := by
  cases c with
  | false => exact .completed (.unchanged x y kk (List.mem_cons_of_mem _ hi)) (State.complete_next h)
  | true => exact .completed (.skip x y kk hi) (State.complete_next h)

/-- A store that finds all its bytes writes memory alone, and keeps its canonical form. -/
theorem State.storeBytes_some {a : Nat} {bs : List Byte} (h : s.storeBytes a bs = some t) :
    t = { s with mem := t.mem } ∧ (s.mem.wf → t.mem.wf) := by
  rcases State.storeBytes_spec bs s a with ⟨hn, -⟩ | ⟨t', ht, -, hframe, hwf, -⟩
  · rw [hn] at h; cases h
  · rw [ht] at h; cases h; exact ⟨hframe, hwf⟩

/-- The post-increment writes the index register alone. -/
theorem State.advanceIndex_frame (s : State) (x : Nibble) :
    s.advanceIndex x = { s with index := (s.advanceIndex x).index } := by
  rw [State.advanceIndex_spec]
  split <;> rfl

/-- The index register after the post-increment depends on QUIRK and the index register alone. -/
theorem State.advanceIndex_congr {x : Nibble} (hq : u.quirk = s.quirk) (hx : u.index = s.index) :
    (u.advanceIndex x).index = (s.advanceIndex x).index := by
  rw [State.advanceIndex_spec, State.advanceIndex_spec, hq, hx]
  split
  · rfl
  · exact hx

/-! ### The instructions with more than one ending -/

theorem execRet_next (h : execRet s = .next t) : s.ExecTo .ret t := by
  unfold execRet at h
  rcases s.pop?_spec with ⟨hs, hp⟩ | ⟨v, rest, hs, hp⟩
  · rw [hp] at h; exact .raised (.underflow hs) (State.raise_next h)
  · rw [hp] at h; exact .completed (.ret hs) (State.complete_next h)

theorem execCall_next {nnn : Addr} (h : execCall nnn s = .next t) : s.ExecTo (.call nnn) t := by
  unfold execCall at h
  split at h
  · exact .raised (.overflow ‹_›) (State.raise_next h)
  · exact .completed (.call (Bool.eq_false_iff.2 ‹_›)) (State.complete_next h)

theorem execLdVxK_next {x : Nibble} (h : execLdVxK x s = .next t) : s.ExecTo (.ldVxK x) t := by
  unfold execLdVxK at h
  split at h
  · exact .completed (.register x 0 0 _ (by simp)) (State.complete_next h)
  · exact .completed (.stepBack _ rfl) (State.complete_next h)

theorem execAddIVx_next {x : Nibble} (h : execAddIVx x s = .next t) : s.ExecTo (.addIVx x) t := by
  have ht := State.complete_next h
  unfold State.setIndexOverflowFlag at ht
  have hkeep (n : Nat) : s.Leaves (.addIVx x) (s.setIndex n) := .setIndex 0 x n (by simp)
  split at ht
  · exact .completed (hkeep _) ht
  · have hq : s.quirk = false := Bool.eq_false_iff.2 ‹_›
    split at ht
    · exact .completed (.overflowFlag _ 1 hq) ht
    · split at ht
      · exact .completed (.overflowFlag _ 0 hq) ht
      · exact .completed (hkeep _) ht

theorem execDrw_next {x y n : Nibble} (h : execDrw x y n s = .next t) : s.ExecTo (.drw x y n) t := by
  obtain ⟨u, hu, ht⟩ := completeAccess_next h
  obtain ⟨rows, -, rfl⟩ := Option.map_eq_some_iff.1 hu
  exact .completed (.draw _) ht

theorem execLdBVx_next {x : Nibble} (h : execLdBVx x s = .next t) : s.ExecTo (.ldBVx x) t := by
  obtain ⟨u, hu, ht⟩ := completeAccess_next h
  obtain ⟨hframe, hwf⟩ := State.storeBytes_some hu
  exact .completed (.digits _ hwf) (by rw [ht, hframe])

theorem execLdMiVx_next {x : Nibble} (h : execLdMiVx x s = .next t) : s.ExecTo (.ldMiVx x) t := by
  obtain ⟨u, hu, ht⟩ := completeAccess_next h
  obtain ⟨stored, hs, rfl⟩ := Option.map_eq_some_iff.1 hu
  obtain ⟨hframe, hwf⟩ := State.storeBytes_some hs
  refine .completed (.store stored.mem hwf) ?_
  rw [ht, State.advanceIndex_frame, State.advanceIndex_congr (s := s) (by rw [hframe]) (by rw [hframe]), hframe]

theorem execLdVxMi_next {x : Nibble} (h : execLdVxMi x s = .next t) : s.ExecTo (.ldVxMi x) t := by
  obtain ⟨u, hu, ht⟩ := completeAccess_next h
  obtain ⟨bytes, hb, rfl⟩ := Option.map_eq_some_iff.1 hu
  have hlen : bytes.length = x.toNat + 1 := by
    rcases s.loadBytes_spec (x.toNat + 1) (s.effective 0) with ⟨hn, -⟩ | ⟨bs, hs, -, hlen, -⟩
    · rw [hn] at hb; cases hb
    · rw [hs] at hb; cases hb; exact hlen
  have hx := x.isLt
  obtain ⟨hframe, hget⟩ := s.setRegistersFrom_spec bytes 0 (by omega)
  refine .completed (.load (s.setRegistersFrom 0 bytes).v (fun r hr => ?_)) ?_
  · rw [← hframe, hget r, dif_neg (by omega)]
  · rw [ht, State.advanceIndex_frame, State.advanceIndex_congr (s := s) (by rw [hframe]) (by rw [hframe]), hframe]

/-! ### Every instruction -/

/-- All that an instruction with a next state can do. -/
theorem exec_next (h : exec i s = .next t) : s.ExecTo i t := by
  cases i with
  | cls => exact .completed .clear (State.complete_next h)
  | ret => exact execRet_next h
  | nop => exact .completed (.unchanged 0 0 0 (by simp)) (State.complete_next h)
  | sys nnn | jp nnn | jpV0 nnn => exact .completed (.jump nnn _ (by simp)) (State.complete_next h)
  | call => exact execCall_next h
  | seVxKk x kk | sneVxKk x kk => exact State.skipIf_next (x := x) (y := 0) (kk := kk) h (by simp [skips])
  | seVxVy x y | sneVxVy x y => exact State.skipIf_next (x := x) (y := y) (kk := 0) h (by simp [skips])
  | skp x | sknp x => exact State.skipIf_next (x := x) (y := 0) (kk := 0) h (by simp [skips])
  | ldVxKk x kk | addVxKk x kk => exact .completed (.register x 0 kk _ (by simp)) (State.complete_next h)
  | ldVxVy x y | orVxVy x y | andVxVy x y | xorVxVy x y =>
    exact .completed (.register x y 0 _ (by simp)) (State.complete_next h)
  | addVxVy x y | subVxVy x y | shrVxVy x y | subnVxVy x y | shlVxVy x y =>
    exact .completed (.resultAndFlag x y _ _ (by simp)) (State.complete_next h)
  | rnd => exact .completed .random (State.complete_next h)
  | drw => exact execDrw_next h
  | ldVxDt x => exact State.counterAccess_next h (.delayLocked x (by simp)) (.register x 0 0 _ (by simp))
  | ldVxK => exact execLdVxK_next h
  | ldDtVx x => exact State.counterAccess_next h (.delayLocked x (by simp)) .setDt
  | ldStVx => exact State.counterAccess_next h .soundLocked .setSt
  | ldI nnn => exact .completed (.setIndex nnn 0 _ (by simp)) (State.complete_next h)
  | ldFVx x => exact .completed (.setIndex 0 x _ (by simp)) (State.complete_next h)
  | addIVx => exact execAddIVx_next h
  | ldBVx => exact execLdBVx_next h
  | ldMiVx => exact execLdMiVx_next h
  | ldVxMi => exact execLdVxMi_next h

end Sys2Proof.Machine
end

section
/-! SUPPORT. All that one event can do: the engine's step, the ticks, and the host operations. -/

namespace Sys2Proof.Machine

variable {e : Event} {s t : State}

/-- `t` is a next state of the event from `s`. -/
inductive State.PerformTo (s : State) : Event → State → Prop
  | turnedAway {d : Draws} (hg : s.run = false ∨ s.contended d.runLocked = true) :
      s.PerformTo (.singleStep d) { s with result := .executionLocked }
  | illegal {d : Draws} {w : Word} {why : Reject} (hr : s.Ready d) (hw : s.fetch16 s.pc.toNat = some w)
      (hd : decodeWord w = .rejected why) :
      s.PerformTo (.singleStep d) { s.inBody d with result := .invalidInstruction, faulted := true }
  | executed {d : Draws} {w : Word} {i : Instr} {t : State} (hr : s.Ready d) (hw : s.fetch16 s.pc.toNat = some w)
      (hd : decodeWord w = .ok i) (hx : (s.inBody d).ExecTo i t) : s.PerformTo (.singleStep d) t
  | delayTick : s.PerformTo .delayTick s.delayTick
  | soundTick : s.PerformTo .soundTick s.soundTick
  | startLocked {locked : Bool} : s.PerformTo (.start locked) { s with result := .executionLocked }
  | started {locked : Bool} : s.PerformTo (.start locked)
      { s.setPc 0x200 with run := true, delayLive := true, soundLive := true, result := .none }
  | stopped {a b : Bool} : s.PerformTo (.stop a b) (s.stop a b)
  | host {e : Event} (keys : Vector KeyState 16) (dirty : Bool) (m : Memory) (hm : s.mem.wf → m.wf) :
      s.PerformTo e { s with keys := keys, dirty := dirty, mem := m }

theorem State.singleStep_next {d : Draws} (h : s.singleStep d = .next t) : s.PerformTo (.singleStep d) t := by
  rcases s.singleStep_spec d with ⟨-, hs⟩ | ⟨hf, hg, hs⟩ | ⟨-, -, hs⟩ | ⟨hr, w, hw, hs⟩
  · rw [hs] at h; cases h
  · rw [hs] at h
    rw [State.raise_next h, show (s.faulted || ErrorKind.executionLocked.fatal) = s.faulted by simp [ErrorKind.fatal]]
    exact .turnedAway hg
  · rw [hs] at h; cases h
  · rw [hs, State.runWord] at h
    cases hd : decodeWord w with
    | ok i => rw [hd] at h; exact .executed hr hw hd (exec_next h)
    | rejected why =>
      rw [hd] at h
      rw [State.raise_next h, show ((s.inBody d).faulted || ErrorKind.invalidInstruction.fatal) = true by
        simp [ErrorKind.fatal]]
      exact .illegal hr hw hd

theorem State.start_next {locked : Bool} (h : s.start locked = .next t) : s.PerformTo (.start locked) t := by
  unfold State.start at h
  split at h
  · cases h
  · split at h
    · cases h; exact .startLocked
    · cases h; exact .started

theorem loaded_next {a : Nat} {bs : List Byte} (h : loaded (s.storeBytes a bs) = .next t) : s.PerformTo e t := by
  cases ho : s.storeBytes a bs with
  | none => rw [ho] at h; cases h
  | some u =>
    rw [ho] at h
    cases h
    obtain ⟨hframe, hwf⟩ := State.storeBytes_some ho
    rw [hframe]
    exact .host s.keys s.dirty t.mem hwf

/-- All that an event with a next state can do. -/
theorem perform_next (h : perform e s = .next t) : s.PerformTo e t := by
  cases e with
  | singleStep d => exact State.singleStep_next h
  | delayTick => cases h; exact .delayTick
  | soundTick => cases h; exact .soundTick
  | start locked => exact State.start_next h
  | stop a b => cases h; exact .stopped
  | loadProgram bytes =>
    simp only [perform, State.loadProgram] at h
    split at h
    · cases h
    · exact loaded_next h
  | hexLoad base text =>
    simp only [perform, State.hexLoad] at h
    split at h
    · cases h
    · exact loaded_next h
  | press | release | frameReset | readDisplay | clearDirty => cases h; exact .host _ _ _ id

/-! ### The timer agents -/

/-- The body of a delay tick writes DT alone, and lowers it unless it is 0 (60_exceptions.md R123). -/
theorem State.delayBody_eq (s : State) : s.delayBody = { s with dt := if s.dt = 0 then s.dt else s.dt - 1 } := by
  unfold State.delayBody
  split <;> rfl

/-- The body of a sound tick makes one call, and lowers ST unless it is 0 (60_exceptions.md R124). -/
theorem State.soundBody_eq (s : State) :
    s.soundBody = { s.callSound (if s.st = 0 then .paused else .playing) with
      st := if s.st = 0 then s.st else s.st - 1 } := by
  unfold State.soundBody
  split <;> rfl

/-- A tick that changes a counter lowers it by one. -/
theorem toNat_add_one_of_tick {c : Byte} (h : (if c = 0 then c else c - 1) ≠ c) :
    (if c = 0 then c else c - 1).toNat + 1 = c.toNat := by
  split at h
  · exact absurd rfl h
  · rw [if_neg ‹_›]; bv_omega

/-- All that a delay tick can be (60_exceptions.md R122, R123). -/
theorem State.delayTick_spec (s : State) :
    (s.delayLive = false ∧ s.delayTick = s) ∨
    (s.delayLive = true ∧ s.run = true ∧ s.delayTick = s.delayBody) ∨
    (s.delayLive = true ∧ s.run = false ∧ s.delayTick = { s with delayLive := false }) := by
  unfold State.delayTick
  cases s.delayLive <;> cases s.run <;> simp

/-- All that a sound tick can be (60_exceptions.md R122, R124). -/
theorem State.soundTick_spec (s : State) :
    (s.soundLive = false ∧ s.soundTick = s) ∨
    (s.soundLive = true ∧ s.run = true ∧ s.soundTick = s.soundBody) ∨
    (s.soundLive = true ∧ s.run = false ∧ s.soundTick = { s with soundLive := false }) := by
  unfold State.soundTick
  cases s.soundLive <;> cases s.run <;> simp

/-- A delay tick writes DT and the agent's own end alone (60_exceptions.md R123). -/
theorem State.delayTick_frame (s : State) :
    s.delayTick = { s with dt := s.delayTick.dt, delayLive := s.delayTick.delayLive } := by
  rcases s.delayTick_spec with ⟨-, h⟩ | ⟨-, -, h⟩ | ⟨-, -, h⟩
  · rw [h]
  · rw [h, State.delayBody_eq]
  · rw [h]

/-- A sound tick writes ST, the sound device and the agent's own end alone (60_exceptions.md R124). -/
theorem State.soundTick_frame (s : State) :
    s.soundTick = { s with
      st := s.soundTick.st, soundOut := s.soundTick.soundOut, soundCalls := s.soundTick.soundCalls,
      soundLive := s.soundTick.soundLive } := by
  rcases s.soundTick_spec with ⟨-, h⟩ | ⟨-, -, h⟩ | ⟨-, -, h⟩
  · rw [h]
  · rw [h, State.soundBody_eq]; rfl
  · rw [h]

/-- The delay agent's end in `stop`, as one update (70_reset_and_hazards.md R136). -/
theorem State.joinDelay_eq (s : State) (trailing : Bool) :
    s.joinDelay trailing = { s with
      delayLive := false, dt := if s.delayLive && trailing then s.delayBody.dt else s.dt } := by
  unfold State.joinDelay
  split
  · rw [State.delayBody_eq]
  · rfl

/-- The sound agent's end in `stop`, as one update (70_reset_and_hazards.md R136). -/
theorem State.joinSound_eq (s : State) (trailing : Bool) :
    s.joinSound trailing = { s with
      soundLive := false
      st := if s.soundLive && trailing then s.soundBody.st else s.st
      soundOut := if s.soundLive && trailing then s.soundBody.soundOut else s.soundOut
      soundCalls := if s.soundLive && trailing then s.soundBody.soundCalls else s.soundCalls } := by
  unfold State.joinSound
  split
  · rw [State.soundBody_eq]; rfl
  · rfl

/-- `stop` as one update: the counters and the sound are what the trailing ticks of live agents leave. -/
theorem State.stop_eq (s : State) (a b : Bool) :
    s.stop a b = { s with
      run := false, faulted := false, delayLive := false, soundLive := false
      dt := if s.delayLive && a then s.delayBody.dt else s.dt
      st := if s.soundLive && b then s.soundBody.st else s.st
      soundOut := if s.soundLive && b then s.soundBody.soundOut else s.soundOut
      soundCalls := if s.soundLive && b then s.soundBody.soundCalls else s.soundCalls } := by
  simp only [State.stop, State.joinSound_eq, State.joinDelay_eq, State.delayBody_eq, State.soundBody_eq,
    State.callSound]

end Sys2Proof.Machine
end

section
/-! What no instruction writes, and which instructions write the counters, the generator and VF. -/

namespace Sys2Proof.Machine

variable {e : Event} {i : Instr} {s t u : State}

/-! ### Frames -/

/-- No completed body writes the run flag, the parameters, the keys, the sound device or the agents. -/
theorem State.Leaves.frame (h : s.Leaves i u) :
    u = { s with
      v := u.v, index := u.index, pc := u.pc, stack := u.stack, dt := u.dt, st := u.st, rngState := u.rngState,
      fb := u.fb, dirty := u.dirty, mem := u.mem } := by
  cases h <;> rfl

/-- No instruction writes the run flag, the parameters, the keys, the sound device or the agents. -/
theorem State.ExecTo.frame (h : s.ExecTo i t) :
    t = { s with
      v := t.v, index := t.index, pc := t.pc, stack := t.stack, dt := t.dt, st := t.st, rngState := t.rngState,
      fb := t.fb, dirty := t.dirty, mem := t.mem, faulted := t.faulted, result := t.result } := by
  cases h with
  | raised _ ht => rw [ht]
  | completed hu ht => rw [ht, hu.frame]

/-! ### Single registers -/

/-- A register write changes the register it names alone. -/
theorem State.eq_of_getV_setV_ne {x r : Nibble} {b : Byte} (h : (s.setV x b).getV r ≠ s.getV r) : x = r := by
  by_contra hx
  exact h (State.getV_setV_ne s b (Ne.symm hx))

/-- Only FX15 writes DT. -/
theorem State.ExecTo.dt (h : s.ExecTo i t) (hi : ∀ x, i ≠ .ldDtVx x) : t.dt = s.dt := by
  cases h with
  | raised _ ht => rw [ht]
  | completed hu ht =>
    rw [ht]
    cases hu with
    | setDt => exact absurd rfl (hi _)
    | _ => rfl

/-- Only FX18 writes ST. -/
theorem State.ExecTo.st (h : s.ExecTo i t) (hi : ∀ x, i ≠ .ldStVx x) : t.st = s.st := by
  cases h with
  | raised _ ht => rw [ht]
  | completed hu ht =>
    rw [ht]
    cases hu with
    | setSt => exact absurd rfl (hi _)
    | _ => rfl

/-- Only CXKK writes the generator's state. -/
theorem State.ExecTo.rngState (h : s.ExecTo i t) (hi : ∀ x kk, i ≠ .rnd x kk) : t.rngState = s.rngState := by
  cases h with
  | raised _ ht => rw [ht]
  | completed hu ht =>
    rw [ht]
    cases hu with
    | random => exact absurd rfl (hi _ _)
    | _ => rfl

/-- CXKK takes one call of the generator, whatever its mask (45_random.md R104). -/
theorem State.ExecTo.rngState_rnd {x : Nibble} {kk : Byte} (h : s.ExecTo (.rnd x kk) t) :
    t.rngState = (Config.rngNext s.rngState).1 := by
  cases h with
  | raised hr _ => cases hr with | delayLocked _ hi => simp at hi
  | completed hu ht =>
    rw [ht]
    cases hu with
    | random => rfl
    | unchanged _ _ _ hi | skip _ _ _ hi => simp [skips] at hi
    | jump _ _ hi | register _ _ _ _ hi | resultAndFlag _ _ _ _ hi | setIndex _ _ _ hi => simp at hi

/-- An engine step that may run executes the instruction it fetched (40_dispatch.md R65). -/
theorem State.singleStep_of_ready {d : Draws} {w : Word} (hr : s.Ready d) (hw : s.fetch16 s.pc.toNat = some w)
    (hd : decodeWord w = .ok i) : s.singleStep d = exec i (s.inBody d) := by
  obtain ⟨hf, hrun, hc⟩ := hr
  have hgate : ¬(s.run = false ∨ s.contended d.runLocked = true) := by
    rcases hc with hc | hc <;> simp [State.contended, hrun, hc]
  simp only [State.singleStep, hf, if_neg hgate, hw, State.beginBody_eq, State.runWord, hd, Bool.false_eq_true,
    if_false]

/-! ### Settled from these -/

/-- Settles O29: of all that a completed body can leave, only these forms touch VF. -/
theorem onlyNamedInstructionsWriteVF : Obligations.OnlyNamedInstructionsWriteVF := by
  unfold Obligations.OnlyNamedInstructionsWriteVF
  intro i s t h hvf
  cases exec_next h with
  | raised _ ht => exact absurd (by rw [ht]; rfl) hvf
  | completed hu ht =>
    rw [ht] at hvf
    cases hu with
    | resultAndFlag x y r f hi => exact .inl ⟨x, y, by simpa using hi⟩
    | draw => exact .inr (.inl ⟨_, _, _, rfl⟩)
    | overflowFlag n b hq => exact .inr (.inr (.inl ⟨_, rfl, hq⟩))
    | register x y kk b hi =>
      obtain rfl := State.eq_of_getV_setV_ne (s := s) hvf
      simp only [List.mem_cons, List.not_mem_nil, or_false] at hi
      exact .inr (.inr (.inr ⟨kk, y, by tauto⟩))
    | @random x kk =>
      obtain rfl := State.eq_of_getV_setV_ne (s := s.random.2) hvf
      exact .inr (.inr (.inr ⟨kk, 0, by simp⟩))
    | @load x v hv =>
      have hx : x = 0xF := by
        by_contra hx
        exact hvf (hv 0xF (by bv_omega))
      subst hx
      exact .inr (.inr (.inr ⟨0, 0, by simp⟩))
    | _ => exact absurd rfl hvf

/-- Settles O40: only an engine step that executes writes the generator, and there only CXKK does. -/
theorem onlyRandomAdvancesTheGenerator : Obligations.OnlyRandomAdvancesTheGenerator := by
  unfold Obligations.OnlyRandomAdvancesTheGenerator
  intro e s t h
  constructor
  · rintro ⟨d, w, x, kk, rfl, hr, hw, hd⟩
    have hx : exec (.rnd x kk) (s.inBody d) = .next t := by
      rw [← State.singleStep_of_ready hr hw hd]; exact h
    exact (exec_next hx).rngState_rnd
  · intro hno
    cases perform_next h with
    | executed hr hw hd hx =>
      exact hx.rngState (fun x kk hi => hno ⟨_, _, x, kk, rfl, hr, hw, hi ▸ hd⟩)
    | delayTick => rw [State.delayTick_frame]
    | soundTick => rw [State.soundTick_frame]
    | stopped => rw [State.stop_eq]
    | _ => rfl

/-- Settles O52: every other event has RUN outside its frame. -/
theorem onlyStartAndStopChangeRun : Obligations.OnlyStartAndStopChangeRun := by
  unfold Obligations.OnlyStartAndStopChangeRun
  intro e s t h hrun
  cases perform_next h with
  | started => exact .inl ⟨rfl, _, rfl⟩
  | stopped => exact .inr ⟨by rw [State.stop_eq], _, _, rfl⟩
  | executed _ _ _ hx => exact absurd (by rw [hx.frame]; rfl) hrun
  | delayTick => exact absurd (by rw [State.delayTick_frame]) hrun
  | soundTick => exact absurd (by rw [State.soundTick_frame]) hrun
  | _ => exact absurd rfl hrun

end Sys2Proof.Machine
end

section
/-! The counters: every event that writes DT or ST, and every event that calls the sound device. -/

namespace Sys2Proof.Machine

variable {e : Event} {s t : State}

/-- A delay tick that changes DT is a live agent's, on a running machine, and lowers DT by one. -/
theorem State.delayTick_dt (h : s.delayTick.dt ≠ s.dt) :
    s.delayTick.dt.toNat + 1 = s.dt.toNat ∧ s.delayLive = true ∧ s.run = true := by
  rcases s.delayTick_spec with ⟨-, ht⟩ | ⟨hl, hr, ht⟩ | ⟨-, -, ht⟩
  · exact absurd (by rw [ht]) h
  · rw [ht, State.delayBody_eq] at h ⊢
    exact ⟨toNat_add_one_of_tick h, hl, hr⟩
  · exact absurd (by rw [ht]) h

/-- A sound tick that changes ST is a live agent's, on a running machine, and lowers ST by one. -/
theorem State.soundTick_st (h : s.soundTick.st ≠ s.st) :
    s.soundTick.st.toNat + 1 = s.st.toNat ∧ s.soundLive = true ∧ s.run = true := by
  rcases s.soundTick_spec with ⟨-, ht⟩ | ⟨hl, hr, ht⟩ | ⟨-, -, ht⟩
  · exact absurd (by rw [ht]) h
  · rw [ht, State.soundBody_eq] at h ⊢
    exact ⟨toNat_add_one_of_tick h, hl, hr⟩
  · exact absurd (by rw [ht]) h

/-- A sound tick that calls the sound device is a live agent's, on a running machine. -/
theorem State.soundTick_soundCalls (h : s.soundTick.soundCalls ≠ s.soundCalls) :
    s.soundLive = true ∧ s.run = true := by
  rcases s.soundTick_spec with ⟨-, ht⟩ | ⟨hl, hr, -⟩ | ⟨-, -, ht⟩
  · exact absurd (by rw [ht]) h
  · exact ⟨hl, hr⟩
  · exact absurd (by rw [ht]) h

/-- A `stop` that changes DT does so by a live agent's trailing tick, which lowers DT by one. -/
theorem State.stop_dt {a b : Bool} (h : (s.stop a b).dt ≠ s.dt) :
    (s.stop a b).dt.toNat + 1 = s.dt.toNat ∧ s.delayLive = true ∧ a = true := by
  rw [State.stop_eq] at h ⊢
  by_cases hl : (s.delayLive && a) = true
  · simp only [hl, if_true, State.delayBody_eq] at h ⊢
    exact ⟨toNat_add_one_of_tick h, (Bool.and_eq_true_iff).1 hl⟩
  · exact absurd (if_neg hl) h

/-- A `stop` that changes ST does so by a live agent's trailing tick, which lowers ST by one. -/
theorem State.stop_st {a b : Bool} (h : (s.stop a b).st ≠ s.st) :
    (s.stop a b).st.toNat + 1 = s.st.toNat ∧ s.soundLive = true ∧ b = true := by
  rw [State.stop_eq] at h ⊢
  by_cases hl : (s.soundLive && b) = true
  · simp only [hl, if_true, State.soundBody_eq] at h ⊢
    exact ⟨toNat_add_one_of_tick h, (Bool.and_eq_true_iff).1 hl⟩
  · exact absurd (if_neg hl) h

/-- A `stop` that calls the sound device does so by a live agent's trailing tick. -/
theorem State.stop_soundCalls {a b : Bool} (h : (s.stop a b).soundCalls ≠ s.soundCalls) :
    s.soundLive = true ∧ b = true := by
  rw [State.stop_eq] at h
  by_cases hl : (s.soundLive && b) = true
  · exact (Bool.and_eq_true_iff).1 hl
  · exact absurd (if_neg hl) h

/-- Every writer of DT (10_state.md R15). -/
theorem State.PerformTo.dt (h : s.PerformTo e t) (hdt : t.dt ≠ s.dt) :
    (t.dt.toNat + 1 = s.dt.toNat ∧ s.delayLive = true ∧ ((e = .delayTick ∧ s.run = true) ∨ ∃ b, e = .stop true b)) ∨
    ∃ d w x, e = .singleStep d ∧ s.Ready d ∧ s.fetch16 s.pc.toNat = some w ∧ decodeWord w = .ok (.ldDtVx x) := by
  cases h with
  | executed hr hw hd hx =>
    by_contra hno
    exact hdt (hx.dt (fun x hi => hno (.inr ⟨_, _, x, rfl, hr, hw, hi ▸ hd⟩)))
  | delayTick =>
    obtain ⟨hlow, hl, hr⟩ := State.delayTick_dt hdt
    exact .inl ⟨hlow, hl, .inl ⟨rfl, hr⟩⟩
  | stopped =>
    obtain ⟨hlow, hl, rfl⟩ := State.stop_dt hdt
    exact .inl ⟨hlow, hl, .inr ⟨_, rfl⟩⟩
  | soundTick => exact absurd (by rw [State.soundTick_frame]) hdt
  | _ => exact absurd rfl hdt

/-- Every writer of ST (10_state.md R15). -/
theorem State.PerformTo.st (h : s.PerformTo e t) (hst : t.st ≠ s.st) :
    (t.st.toNat + 1 = s.st.toNat ∧ s.soundLive = true ∧ ((e = .soundTick ∧ s.run = true) ∨ ∃ b, e = .stop b true)) ∨
    ∃ d w x, e = .singleStep d ∧ s.Ready d ∧ s.fetch16 s.pc.toNat = some w ∧ decodeWord w = .ok (.ldStVx x) := by
  cases h with
  | executed hr hw hd hx =>
    by_contra hno
    exact hst (hx.st (fun x hi => hno (.inr ⟨_, _, x, rfl, hr, hw, hi ▸ hd⟩)))
  | soundTick =>
    obtain ⟨hlow, hl, hr⟩ := State.soundTick_st hst
    exact .inl ⟨hlow, hl, .inl ⟨rfl, hr⟩⟩
  | stopped =>
    obtain ⟨hlow, hl, rfl⟩ := State.stop_st hst
    exact .inl ⟨hlow, hl, .inr ⟨_, rfl⟩⟩
  | delayTick => exact absurd (by rw [State.delayTick_frame]) hst
  | _ => exact absurd rfl hst

/-- Every caller of the sound device (60_exceptions.md R124). -/
theorem State.PerformTo.soundCalls (h : s.PerformTo e t) (hcalls : t.soundCalls ≠ s.soundCalls) :
    s.soundLive = true ∧ ((e = .soundTick ∧ s.run = true) ∨ ∃ b, e = .stop b true) := by
  cases h with
  | executed _ _ _ hx => exact absurd (by rw [hx.frame]; rfl) hcalls
  | soundTick =>
    obtain ⟨hl, hr⟩ := State.soundTick_soundCalls hcalls
    exact ⟨hl, .inl ⟨rfl, hr⟩⟩
  | stopped =>
    obtain ⟨hl, rfl⟩ := State.stop_soundCalls hcalls
    exact ⟨hl, .inr ⟨_, rfl⟩⟩
  | delayTick => exact absurd (by rw [State.delayTick_frame]) hcalls
  | _ => exact absurd rfl hcalls

/-- Settles O49: the writers of DT, of ST and of the record of sound calls, event by event. -/
theorem countersHaveFewWriters : Obligations.CountersHaveFewWriters := by
  unfold Obligations.CountersHaveFewWriters
  intro e s t h
  have hp := perform_next h
  exact ⟨hp.dt, hp.st, hp.soundCalls⟩

end Sys2Proof.Machine
end

section
/-! The invariant of the machine: at construction, and kept by every step. -/

namespace Sys2Proof.Machine

variable {e : Event} {i : Instr} {s t u : State}

/-! ### What keeps the invariant, one rule per update -/

theorem State.Inv.setPc (h : s.Inv) (n : Nat) : (s.setPc n).Inv :=
  { h with pc_masked := by rw [State.setPc_toNat]; omega }

theorem State.Inv.setIndex (h : s.Inv) (n : Nat) : (s.setIndex n).Inv :=
  { h with index_masked := by rw [State.setIndex_toNat]; omega }

theorem State.Inv.advanceIndex (h : s.Inv) (x : Nibble) : (s.advanceIndex x).Inv := by
  rw [State.advanceIndex_spec]
  split
  · exact h.setIndex _
  · exact h

theorem State.Inv.setMem (h : s.Inv) {m : Memory} (hm : m.wf) : { s with mem := m }.Inv :=
  { h with mem_wf := hm }

theorem State.Inv.setResult (h : s.Inv) {k : ErrorKind} (hk : k ≠ .unhookedKeyBoard) : { s with result := k }.Inv :=
  { h with never_unhooked := hk }

/-- An error other than the reserved one keeps the invariant of a running machine, fatal or not. -/
theorem State.Inv.raise (h : s.Inv) (hr : s.run = true) {k : ErrorKind} (hk : k ≠ .unhookedKeyBoard) (f : Bool) :
    { s with result := k, faulted := f }.Inv :=
  { h with faulted_runs := fun _ => hr, never_unhooked := hk }

theorem State.Inv.push (h : s.Inv) (hf : s.stackFull = false) : (s.push s.pc).Inv :=
  { h with
    stack_masked := by
      rintro a (_ | ⟨_, ha⟩)
      · exact h.pc_masked
      · exact h.stack_masked a ha
    stack_bounded := fun depth hd => by
      have hle := h.stack_bounded depth hd
      have hne : s.params.stackDepth ≠ some s.stack.length := fun hfull => by
        simp [(s.stackFull_iff).2 hfull] at hf
      have hlt : s.stack.length ≠ depth := fun he => hne (he ▸ hd)
      rw [State.push_stack, List.length_cons]
      omega }

theorem State.Inv.pop (h : s.Inv) {v : Word} {rest : List Word} (hs : s.stack = v :: rest) :
    { s with stack := rest }.Inv :=
  { h with
    stack_masked := fun a ha => h.stack_masked a (by rw [hs]; exact List.mem_cons_of_mem v ha)
    stack_bounded := fun depth hd => by
      have hle := h.stack_bounded depth hd
      rw [hs, List.length_cons] at hle
      exact Nat.le_of_succ_le hle }

theorem State.Inv.inBody (h : s.Inv) (d : Draws) : (s.inBody d).Inv :=
  have hd : { s with draws := d }.Inv := { h with }
  hd.setPc (s.pc.toNat + 2)

/-! ### The instructions -/

theorem State.Leaves.inv (hl : s.Leaves i u) (h : s.Inv) : u.Inv := by
  cases hl with
  | unchanged => exact h
  | skip | jump | stepBack => exact h.setPc _
  | ret hs => exact (h.pop hs).setPc _
  | call hs => exact (h.push hs).setPc _
  | setIndex => exact h.setIndex _
  | overflowFlag n => exact { h.setIndex n with }
  | digits m hm => exact h.setMem (hm h.mem_wf)
  | @store x m hm => exact { h.setMem (hm h.mem_wf) with index_masked := (h.advanceIndex x).index_masked }
  | @load x => exact { h with index_masked := (h.advanceIndex x).index_masked }
  | clear | draw | register | resultAndFlag | random | setDt | setSt => exact { h with }

theorem State.Raises.ne_unhookedKeyBoard {k : ErrorKind} (h : s.Raises i k) : k ≠ .unhookedKeyBoard := by
  cases h <;> decide

theorem State.ExecTo.inv (hx : s.ExecTo i t) (h : s.Inv) (hr : s.run = true) : t.Inv := by
  cases hx with
  | raised he ht => rw [ht]; exact h.raise hr he.ne_unhookedKeyBoard _
  | completed hu ht => rw [ht]; exact (hu.inv h).setResult (by decide)

/-! ### The timer agents and `stop` -/

theorem State.Inv.callSound (h : s.Inv) (call : Sound) : (s.callSound call).Inv :=
  { h with sound_last := rfl }

theorem State.Inv.soundBody (h : s.Inv) : s.soundBody.Inv := by
  rw [State.soundBody_eq]
  exact { h.callSound _ with }

theorem State.Inv.delayBody (h : s.Inv) : s.delayBody.Inv := by
  rw [State.delayBody_eq]
  exact { h with }

/-- A live agent of a stopped machine does not arise: the agents are live exactly while the machine runs. -/
theorem State.Inv.delayTick (h : s.Inv) : s.delayTick.Inv := by
  rcases s.delayTick_spec with ⟨-, ht⟩ | ⟨-, -, ht⟩ | ⟨hl, hr, -⟩
  · rw [ht]; exact h
  · rw [ht]; exact h.delayBody
  · rw [h.delay_live, hr] at hl; cases hl

theorem State.Inv.soundTick (h : s.Inv) : s.soundTick.Inv := by
  rcases s.soundTick_spec with ⟨-, ht⟩ | ⟨-, -, ht⟩ | ⟨hl, hr, -⟩
  · rw [ht]; exact h
  · rw [ht]; exact h.soundBody
  · rw [h.sound_live, hr] at hl; cases hl

theorem State.Inv.stop (h : s.Inv) (a b : Bool) : (s.stop a b).Inv := by
  rw [State.stop_eq]
  exact { h with
    delay_live := rfl
    sound_live := rfl
    faulted_runs := by simp
    sound_last := by
      by_cases hl : (s.soundLive && b) = true
      · simpa only [if_pos hl] using h.soundBody.sound_last
      · simpa only [if_neg hl] using h.sound_last }

/-! ### Every event -/

theorem State.PerformTo.inv (hp : s.PerformTo e t) (h : s.Inv) : t.Inv := by
  cases hp with
  | turnedAway | startLocked => exact h.setResult (by decide)
  | illegal hr => exact (h.inBody _).raise hr.running (by decide) true
  | executed hr _ _ hx => exact hx.inv (h.inBody _) hr.running
  | delayTick => exact h.delayTick
  | soundTick => exact h.soundTick
  | started =>
    exact { h.setPc 0x200 with
      delay_live := rfl, sound_live := rfl, faulted_runs := fun _ => rfl, never_unhooked := by simp }
  | stopped => exact h.stop _ _
  | host keys dirty m hm => exact { h.setMem (hm h.mem_wf) with }

theorem State.Inv.nextEvent (h : s.Inv) : s.nextEvent.2.Inv := by
  rw [State.nextEvent_frame]
  exact { h with }

/-- Settles O59: taking the next event keeps the invariant, and so does every event. -/
theorem stepKeepsTheInvariant : Obligations.StepKeepsTheInvariant := by
  unfold Obligations.StepKeepsTheInvariant
  intro s t h hstep
  exact (perform_next hstep).inv h.nextEvent

/-- Settles O58: memory and the stack are empty, and nothing is live, faulted or returned yet. -/
theorem resetMeetsTheInvariant : Obligations.ResetMeetsTheInvariant where
  mem_wf := Memory.nil_wf
  pc_masked := by decide
  index_masked := by decide
  stack_masked := by intro a ha; cases ha
  stack_bounded := fun _ _ => Nat.zero_le _
  delay_live := rfl
  sound_live := rfl
  faulted_runs := by intro hf; cases hf
  sound_last := rfl
  never_unhooked := by intro hr; cases hr

/-- The parameters are outside every event's frame. -/
theorem State.PerformTo.params (h : s.PerformTo e t) : t.quirk = s.quirk ∧ t.params = s.params := by
  cases h with
  | executed _ _ _ hx => rw [hx.frame]; exact ⟨rfl, rfl⟩
  | delayTick => rw [State.delayTick_frame]; exact ⟨rfl, rfl⟩
  | soundTick => rw [State.soundTick_frame]; exact ⟨rfl, rfl⟩
  | stopped => rw [State.stop_eq]; exact ⟨rfl, rfl⟩
  | _ => exact ⟨rfl, rfl⟩

/-- Settles O60: neither taking the next event nor any event writes the parameters. -/
theorem parametersNeverChange : Obligations.ParametersNeverChange := by
  unfold Obligations.ParametersNeverChange
  intro s t hstep
  have hp := (perform_next hstep).params
  rw [s.nextEvent_frame] at hp
  exact hp

end Sys2Proof.Machine
end

section
/-! The values at construction. -/

namespace Sys2Proof.Machine

theorem font_length : Config.font.length = 0x50 := rfl

/-- A byte above the font that nothing has written reads as 0 (10_state.md R24, R27). -/
theorem Memory.initial_above_font {a : Nat} (h : 0x50 ≤ a) : Memory.initial a = 0 :=
  List.getD_eq_default _ _ (font_length ▸ h)

/-- Settles O57: an empty memory reads as the construction contents, the font and above it 0. -/
theorem constructionValues : Obligations.ConstructionValues := by
  unfold Obligations.ConstructionValues
  refine ⟨?_, font_length, rfl, rfl, rfl, rfl, rfl, rfl, rfl⟩
  rintro quirk params seed s rfl
  have hv : ∀ r, (State.construct quirk params seed).getV r = 0 := fun r => by simp [State.getV, State.construct]
  have hkey : ∀ k, (State.construct quirk params seed).key k = .untouched := fun k => by
    simp [State.key, State.construct]
  exact ⟨hv, rfl, rfl, rfl, rfl, rfl, rfl, rfl, rfl, hkey, pixel_blankFrame, rfl, rfl, rfl, rfl, rfl, rfl,
    fun a ha _ => Memory.initial_above_font ha, fun _ _ _ _ => rfl⟩

end Sys2Proof.Machine
end

section
/-! The byte memory: which accesses find no byte, what a byte write and a fetch answer, and which instructions stop. -/

namespace Sys2Proof.Machine

/-! ### Missing bytes (20_memory.md R30) -/

/-- Only address 0xFFF under M4095 has no byte. -/
theorem State.backed_eq_false_iff (s : State) (a : Nat) :
    s.backed a = false ↔ s.params.memModel = .m4095 ∧ a % 0x1000 = 0xFFF := by
  unfold State.backed mask12
  cases s.params.memModel <;> simp

/-- One of the addresses `a + k`, `P k`, has no byte exactly when one of them is 0xFFF under M4095. -/
theorem State.exists_not_backed_iff (s : State) (a : Nat) (P : Nat → Prop) :
    (∃ k, P k ∧ s.backed (a + k) = false) ↔
      s.params.memModel = .m4095 ∧ ∃ k, P k ∧ (a + k) % 0x1000 = 0xFFF := by
  simp only [State.backed_eq_false_iff]
  constructor
  · rintro ⟨k, hk, hm, ha⟩; exact ⟨hm, k, hk, ha⟩
  · rintro ⟨hm, k, hk, ha⟩; exact ⟨k, hk, hm, ha⟩

theorem State.loadBytes_eq_none_iff (s : State) (a n : Nat) :
    s.loadBytes a n = none ↔ ∃ k, k < n ∧ s.backed (a + k) = false := by
  rcases s.loadBytes_spec n a with ⟨hn, hk⟩ | ⟨bs, hs, hall, -, -⟩
  · exact iff_of_true hn hk
  · refine iff_of_false (by simp [hs]) ?_
    rintro ⟨k, hk, hb⟩
    simp [hall k hk] at hb

theorem State.storeBytes_eq_none_iff (s : State) (a : Nat) (bs : List Byte) :
    s.storeBytes a bs = none ↔ ∃ k, k < bs.length ∧ s.backed (a + k) = false := by
  rcases State.storeBytes_spec bs s a with ⟨hn, hk⟩ | ⟨t, ht, hall, -⟩
  · exact iff_of_true hn hk
  · refine iff_of_false (by simp [ht]) ?_
    rintro ⟨k, hk, hb⟩
    simp [hall k hk] at hb

theorem completeAccess_eq_memPanic_iff {o : Option State} : completeAccess o = .fault .memPanic ↔ o = none := by
  cases o <;> simp

theorem decimalDigits_length (b : Byte) : (decimalDigits b).length = 3 := rfl

/-- DXYN reads a sprite row that is both asked for and above row 32 (46_display.md R106). -/
theorem State.lt_rowsDrawn_iff (s : State) (y n : Nibble) (k : Nat) :
    k < rowsDrawn (s.startRow y) n ↔ k < n.toNat ∧ (s.getV y).toNat % 32 + k < 32 := by
  rw [rowsDrawn, State.startRow, Nat.lt_min]
  omega

/-- Settles O13: each of the four stops exactly when its load or store finds a byte missing. -/
theorem missingByteIsMemPanic : Obligations.MissingByteIsMemPanic := by
  unfold Obligations.MissingByteIsMemPanic
  intro x y n s
  refine ⟨?_, ?_, ?_, ?_⟩
  · simp only [exec, execLdBVx, completeAccess_eq_memPanic_iff, State.storeBytes_eq_none_iff, decimalDigits_length,
      State.effective_eq, Nat.add_zero, State.exists_not_backed_iff]
  · simp only [exec, execLdMiVx, completeAccess_eq_memPanic_iff, Option.map_eq_none_iff, State.storeBytes_eq_none_iff,
      State.registersUpTo_length, Nat.lt_succ_iff, State.effective_eq, Nat.add_zero, State.exists_not_backed_iff]
  · simp only [exec, execLdVxMi, completeAccess_eq_memPanic_iff, Option.map_eq_none_iff, State.loadBytes_eq_none_iff,
      Nat.lt_succ_iff, State.effective_eq, Nat.add_zero, State.exists_not_backed_iff]
  · simp only [exec, execDrw, completeAccess_eq_memPanic_iff, Option.map_eq_none_iff, State.loadBytes_eq_none_iff,
      State.lt_rowsDrawn_iff, State.effective_eq, Nat.add_zero, State.exists_not_backed_iff]
    simp only [and_assoc]

/-! ### Instructions that stop -/

theorem completeAccess_next_or_memPanic (o : Option State) :
    (∃ t, completeAccess o = .next t) ∨ completeAccess o = .fault .memPanic := by
  cases o with
  | none => exact .inr rfl
  | some u => exact .inl ⟨_, rfl⟩

theorem State.counterAccess_exists_next (s u : State) (e : ErrorKind) : ∃ t, s.counterAccess e u = .next t := by
  rw [State.counterAccess_spec]
  split <;> exact ⟨_, rfl⟩

/-- An instruction has a next state, or it is one of the four that access memory and stops with MemPanic. -/
theorem exec_next_or_memPanic (i : Instr) (s : State) :
    (∃ t, exec i s = .next t) ∨
    exec i s = .fault .memPanic ∧ ∃ x y n, i ∈ [Instr.ldBVx x, .ldMiVx x, .ldVxMi x, .drw x y n] := by
  cases i with
  | ldBVx x | ldMiVx x | ldVxMi x => exact (completeAccess_next_or_memPanic _).imp_right (⟨·, x, 0, 0, by simp⟩)
  | drw x y n => exact (completeAccess_next_or_memPanic _).imp_right (⟨·, x, y, n, by simp⟩)
  | ldVxDt | ldDtVx | ldStVx => exact .inl (s.counterAccess_exists_next _ _)
  | ret =>
    left
    show ∃ t, execRet s = .next t
    unfold execRet
    split <;> exact ⟨_, rfl⟩
  | call nnn =>
    left
    show ∃ t, execCall nnn s = .next t
    unfold execCall
    split <;> exact ⟨_, rfl⟩
  | ldVxK x =>
    left
    show ∃ t, execLdVxK x s = .next t
    unfold execLdVxK
    split <;> exact ⟨_, rfl⟩
  | _ => exact .inl ⟨_, rfl⟩

/-- Settles O12: only the four of O13 stop, and they do so under M4095 alone. -/
theorem everyInstructionRunsUnderM4096 : Obligations.EveryInstructionRunsUnderM4096 := by
  unfold Obligations.EveryInstructionRunsUnderM4096
  intro i s hm
  rcases exec_next_or_memPanic i s with h | ⟨hp, x, y, n, hi⟩
  · exact h
  · obtain ⟨hdigits, hstore, hload, hdraw⟩ := missingByteIsMemPanic x y n s
    have hm' : s.params.memModel = .m4095 := by
      simp only [List.mem_cons, List.not_mem_nil, or_false] at hi
      rcases hi with rfl | rfl | rfl | rfl
      · exact (hdigits.1 hp).1
      · exact (hstore.1 hp).1
      · exact (hload.1 hp).1
      · exact (hdraw.1 hp).1
    simp [hm] at hm'

/-- Settles O38: of all that a completed body can leave, only the two stores have another memory. -/
theorem onlyStoresWriteMemory : Obligations.OnlyStoresWriteMemory := by
  unfold Obligations.OnlyStoresWriteMemory
  intro i s t h hmem
  cases exec_next h with
  | raised _ ht => exact absurd (by rw [ht]) hmem
  | completed hu ht =>
    rw [ht] at hmem
    cases hu with
    | digits => exact ⟨_, .inl rfl⟩
    | store => exact ⟨_, .inr rfl⟩
    | _ => exact absurd rfl hmem

/-! ### One byte and one word -/

/-- A new memory does not move the missing byte. -/
theorem State.memRead_mem (s : State) (m : Memory) (a : Nat) :
    { s with mem := m }.memRead a = if s.backed a then some (m.read (mask12 a)) else none := rfl

/-- Settles O32: a write reaches the one cell of its masked address, under every address that masks to it. -/
theorem byteWriteReadsBack : Obligations.ByteWriteReadsBack := by
  unfold Obligations.ByteWriteReadsBack
  intro s a b hb
  rcases s.memWrite_spec a b with ⟨hn, -⟩ | ⟨-, hw⟩
  · rw [hb] at hn; cases hn
  have hread (a' : Nat) : { s with mem := s.mem.write (mask12 a) b }.memRead a' =
      if a' % 0x1000 = a % 0x1000 then some b else s.memRead a' := by
    rw [State.memRead_mem, State.memRead_eq, Memory.read_write, mask12, mask12]
    by_cases h : a' % 0x1000 = a % 0x1000
    · rw [s.backed_mask12 h, if_pos hb, if_pos h, if_pos h]
    · rw [if_neg h, if_neg h]
  refine ⟨_, hw, ?_, fun a' h => ?_, fun a' h => ?_, rfl⟩
  · rw [hread, if_pos rfl]
  · rw [hread, if_neg h]
  · rw [hread, if_pos h]

/-- An access masks its address (20_memory.md R29). -/
theorem State.memRead_mod (s : State) (a : Nat) : s.memRead (a % 0x1000) = s.memRead a := by
  have h : mask12 (a % 0x1000) = mask12 a := Nat.mod_mod a 0x1000
  rw [State.memRead_eq, State.memRead_eq, s.backed_mask12 h, h]

theorem State.fetch16_eq_none_iff (s : State) (a : Nat) :
    s.fetch16 a = none ↔ s.backed a = false ∨ s.backed (a + 1) = false := by
  rcases s.fetch16_spec a with ⟨hb, hn⟩ | ⟨h0, h1, hw⟩
  · exact iff_of_true hn hb
  · exact iff_of_false (by simp [hw]) (by simp [h0, h1])

/-- Settles O33: the two bytes of a fetch, and when one of them is missing. -/
theorem fetchIsBigEndian : Obligations.FetchIsBigEndian := by
  unfold Obligations.FetchIsBigEndian
  refine fun s a => ⟨fun hi lo hhi hlo => ?_, ?_⟩
  · rw [State.memRead_mod] at hhi hlo
    exact ⟨wordOfBytes hi lo, by rw [State.fetch16, hhi, hlo], wordOfBytes_toNat hi lo⟩
  · rw [State.fetch16_eq_none_iff, State.backed_eq_false_iff, State.backed_eq_false_iff, and_or_left]

end Sys2Proof.Machine
end

section
/-! The host loads: the bytes of a list in memory (20_memory.md R45), and the bytes of a hex text (R46). -/

namespace Sys2Proof.Machine

/-! ### A list of bytes in memory -/

/-- `t` is `s` with the bytes at `a` onward, masked, the last byte that falls on an address winning. -/
structure State.Holds (s : State) (a : Nat) (bs : List Byte) (t : State) : Prop where
  inside : ∀ k (h : k < bs.length), (∀ j, k < j → j < bs.length → (a + j) % 0x1000 ≠ (a + k) % 0x1000) →
    t.memRead (a + k) = some bs[k]
  outside : ∀ c, (∀ k, k < bs.length → c % 0x1000 ≠ (a + k) % 0x1000) → t.memRead c = s.memRead c
  frame : t = { s with mem := t.mem }

/-- A host load that misses a byte is MemPanic (20_memory.md R30). -/
theorem loaded_eq_memPanic {s : State} {a : Nat} {bs : List Byte}
    (h : ∃ k, k < bs.length ∧ s.backed (a + k) = false) : loaded (s.storeBytes a bs) = .fault .memPanic := by
  rw [(s.storeBytes_eq_none_iff a bs).2 h]
  rfl

/-- A host load that finds all its bytes leaves them in memory (20_memory.md R45). -/
theorem loaded_holds {s : State} {a : Nat} {bs : List Byte} (h : ∀ k, k < bs.length → s.backed (a + k) = true) :
    ∃ t, loaded (s.storeBytes a bs) = .next t ∧ s.Holds a bs t := by
  rcases State.storeBytes_spec bs s a with ⟨-, k, hk, hb⟩ | ⟨t, ht, -, hframe, -, hout, hin⟩
  · rw [h k hk] at hb; cases hb
  have hparams : t.params = s.params := by rw [hframe]
  refine ⟨t, by rw [ht]; rfl, ?_, ?_, hframe⟩
  · intro k hk hlast
    rw [State.memRead_backed _ _ ((State.backed_congr hparams _).trans (h k hk)), hin k hk hlast]
  · intro c hc
    rw [State.memRead_eq, State.memRead_eq, State.backed_congr hparams, hout (mask12 c) hc]

theorem State.perform_loadProgram_stopped (s : State) (hr : s.run = false) (bytes : List Byte) :
    perform (.loadProgram bytes) s = loaded (s.storeBytes 0x200 bytes) :=
  if_neg (by simp [hr])

theorem State.perform_hexLoad_stopped (s : State) (hr : s.run = false) (base : Nat) (text : List Char) :
    perform (.hexLoad base text) s = loaded (s.storeBytes base (hexBytes text)) :=
  if_neg (by simp [hr])

/-- Settles O53: `load_program` is the host load at 0x200. -/
theorem loadedProgramIsInMemory : Obligations.LoadedProgramIsInMemory := by
  unfold Obligations.LoadedProgramIsInMemory
  intro s bytes
  refine ⟨fun hr => if_pos hr, fun hr hmiss => ?_, fun hr hall => ?_⟩
  · exact (s.perform_loadProgram_stopped hr bytes).trans (loaded_eq_memPanic hmiss)
  · obtain ⟨t, ht, hin, hout, hframe⟩ := loaded_holds hall
    exact ⟨t, (s.perform_loadProgram_stopped hr bytes).trans ht, hin, hout, hframe⟩

/-! ### Hex text -/

/-- The hex digits with their values (20_memory.md R46). -/
def hexTable : List (Char × Nibble) :=
  ("0123456789ABCDEF".toList ++ "abcdef".toList).zip (nibbles ++ nibbles.drop 10)

/-- Every hex digit is one of the first 0x67 characters. -/
theorem hexDigit?_some_lt {c : Char} {v : Nibble} (h : hexDigit? c = some v) : c.toNat < 0x67 := by
  unfold hexDigit? at h
  dsimp only at h
  split at h
  · omega
  split at h
  · omega
  split at h
  · omega
  · cases h

/-- `hexDigit?` is the lookup in the table. -/
theorem hexDigit?_eq_some_iff (c : Char) (v : Nibble) : hexDigit? c = some v ↔ (c, v) ∈ hexTable := by
  constructor
  · intro h
    have htable : ∀ n < 0x67, ∀ v ∈ hexDigit? (Char.ofNat n), (Char.ofNat n, v) ∈ hexTable := by decide
    simpa using htable c.toNat (hexDigit?_some_lt h) v (by simpa using h)
  · have htable : ∀ p ∈ hexTable, hexDigit? p.1 = some p.2 := by decide
    exact htable (c, v)

/-- A character that is no hex digit does not count. -/
theorem hexBytes_skip {c : Char} (hc : hexDigit? c = none) (t u : List Char) :
    hexBytes (t ++ c :: u) = hexBytes (t ++ u) := by
  rw [hexBytes, hexBytes, List.filterMap_append, List.filterMap_append, List.filterMap_cons_none hc]

/-- Two hex digits make one byte, the first the high nibble. -/
theorem hexBytes_pair {c d : Char} {hi lo : Nibble} (hc : hexDigit? c = some hi) (hd : hexDigit? d = some lo)
    (u : List Char) : hexBytes (c :: d :: u) = (hi ++ lo) :: hexBytes u := by
  rw [hexBytes, List.filterMap_cons_some hc, List.filterMap_cons_some hd, pairDigits, hexBytes]

/-- A lone last digit makes no byte. -/
theorem hexBytes_singleton (c : Char) : hexBytes [c] = [] := by
  unfold hexBytes
  cases hc : hexDigit? c with
  | none => rw [List.filterMap_cons_none hc]; rfl
  | some v => rw [List.filterMap_cons_some hc]; rfl

/-- Settles O54: the table of digits, the bytes of a text, and the host load of them at the base. -/
theorem hexTextBecomesBytesInMemory : Obligations.HexTextBecomesBytesInMemory := by
  unfold Obligations.HexTextBecomesBytesInMemory
  refine ⟨hexDigit?_eq_some_iff, fun t u c hc => hexBytes_skip hc t u, ?_, hexBytes_singleton, ?_⟩
  · exact fun c d hi lo u hc hd => ⟨hi ++ lo, hexBytes_pair hc hd u, append_toNat hi lo⟩
  rintro s base text bytes rfl
  refine ⟨fun hr => if_pos hr, fun hr hmiss => ?_, fun hr hall => ?_⟩
  · exact (s.perform_hexLoad_stopped hr base text).trans (loaded_eq_memPanic hmiss)
  · obtain ⟨t, ht, hin, hout, hframe⟩ := loaded_holds hall
    exact ⟨t, (s.perform_hexLoad_stopped hr base text).trans ht, hin, hout, hframe⟩

end Sys2Proof.Machine
end

section
/-! The decoder and the encoder are inverse to each other (30_encoding.md R48, R51, R52), and the words without an
instruction are those of R53. Each group of words that share a top nibble has its lemma for either direction. -/

namespace Sys2Proof

variable {w : Word} {i : Instr}

/-! ### Decode of encode -/

/-- The `0NNN` instructions that some word encodes (30_encoding.md R52). -/
theorem wellFormed_sys_iff {nnn : Addr} :
    (Instr.sys nnn).wellFormed = true ↔ nnn ≠ 0x0E0 ∧ nnn ≠ 0x0EE ∧ nnn ≠ 0x0FD := by
  simp [Instr.wellFormed, exactWordOperands]

/-- The top-nibble-0 group by its operand: the exact words are told by `NNN` alone. -/
theorem decode0_nnn (nnn : Addr) : decode0 (0x0#4 ++ nnn) =
    if nnn = 0x0E0 then .ok .cls else if nnn = 0x0EE then .ok .ret else if nnn = 0x0FD then .ok .nop
    else .ok (.sys nnn) := by
  have hinj (m : Addr) : 0x0#4 ++ nnn = 0x0#4 ++ m ↔ nnn = m :=
    ⟨fun h => by rw [← nnnField_nnn 0x0#4 nnn, h, nnnField_nnn], congrArg _⟩
  unfold decode0
  rw [nnnField_nnn]
  exact if_congr (hinj 0x0E0) rfl (if_congr (hinj 0x0EE) rfl (if_congr (hinj 0x0FD) rfl rfl))

/-- The word of a well-formed instruction decodes to it: the decoder reads the fields that the encoder wrote. -/
theorem decodeWord_encode (h : i.wellFormed = true) : decodeWord (encode i) = .ok i := by
  cases i with
  | cls | ret | nop => decide
  | sys nnn =>
    obtain ⟨hcls, hret, hnop⟩ := wellFormed_sys_iff.1 h
    rw [encode, decodeWord, opField_nnn]
    exact (decode0_nnn nnn).trans (by rw [if_neg hcls, if_neg hret, if_neg hnop])
  | jp nnn | call nnn | ldI nnn | jpV0 nnn => simp [encode, decodeWord]
  | seVxKk x kk | sneVxKk x kk | ldVxKk x kk | addVxKk x kk | rnd x kk => simp [encode, decodeWord]
  | seVxVy x y | sneVxVy x y | drw x y n => simp [encode, decodeWord]
  | ldVxVy x y | orVxVy x y | andVxVy x y | xorVxVy x y | addVxVy x y | subVxVy x y | shrVxVy x y | subnVxVy x y
  | shlVxVy x y => simp [encode, decodeWord, decode8]
  | skp x | sknp x => simp [encode, decodeWord, decodeE]
  | ldVxDt x | ldVxK x | ldDtVx x | ldStVx x | addIVx x | ldFVx x | ldBVx x | ldMiVx x | ldVxMi x =>
    simp [encode, decodeWord, decodeF]

/-- The opcode table's numbering of a word's bits is the word itself. -/
theorem decodeTableWord_toNat (w : Word) : decodeTableWord 16 w.toNat = (decodeWord w).instr? := by
  rw [decodeTableWord, Nat.mod_eq_of_lt w.isLt, BitVec.ofNat_toNat, BitVec.setWidth_eq, decodeBytes_bytesOfWord]

/-- Settles O3: the three forms of a word all decode as the word does. -/
theorem decodeOfEncode : Obligations.DecodeOfEncode := by
  unfold Obligations.DecodeOfEncode
  intro i hi
  have hw : decodeWord (encode i) = .ok i := decodeWord_encode hi
  refine ⟨hw, ?_, ?_⟩
  · rw [decodeBytes_bytesOfWord, hw]
  · rw [decodeTableWord_toNat, hw]; rfl

/-! ### Encode of decode

A word whose top nibble is known is that nibble before its other fields, in each operand format (30_encoding.md R48). -/

theorem nnn_eq_word {o : Nibble} (h : (opField w).toNat = o.toNat) : o ++ nnnField w = w := by
  rw [← BitVec.eq_of_toNat_eq h, word_eq_nnn]

theorem xkk_eq_word {o : Nibble} (h : (opField w).toNat = o.toNat) : o ++ xField w ++ kkField w = w := by
  rw [← BitVec.eq_of_toNat_eq h, word_eq_xkk]

theorem xyn_eq_word {o : Nibble} (h : (opField w).toNat = o.toNat) : o ++ xField w ++ yField w ++ nField w = w := by
  rw [← BitVec.eq_of_toNat_eq h, word_eq_xyn]

theorem xy0_eq_word {o : Nibble} (h : (opField w).toNat = o.toNat) (hn : nField w = 0x0#4) :
    o ++ xField w ++ yField w ++ 0x0#4 = w := by
  rw [← hn, xyn_eq_word h]

theorem encode_of_decode0 {nnn : Addr} (h : decode0 (0x0#4 ++ nnn) = .ok i) :
    i.wellFormed = true ∧ encode i = 0x0#4 ++ nnn := by
  rw [decode0_nnn] at h
  split_ifs at h with hcls hret hnop
  · cases h; subst hcls; exact ⟨rfl, rfl⟩
  · cases h; subst hret; exact ⟨rfl, rfl⟩
  · cases h; subst hnop; exact ⟨rfl, rfl⟩
  · cases h; exact ⟨wellFormed_sys_iff.2 ⟨hcls, hret, hnop⟩, rfl⟩

theorem encode_of_decode8 {x y n : Nibble} (h : decode8 x y n = .ok i) :
    i.wellFormed = true ∧ encode i = 0x8#4 ++ x ++ y ++ n := by
  unfold decode8 at h
  split at h <;> cases h
  all_goals rename_i hn; exact ⟨rfl, congrArg (0x8#4 ++ x ++ y ++ ·) (BitVec.eq_of_toNat_eq hn.symm)⟩

theorem encode_of_decodeE {x : Nibble} {kk : Byte} (h : decodeE x kk = .ok i) :
    i.wellFormed = true ∧ encode i = 0xE#4 ++ x ++ kk := by
  unfold decodeE at h
  split_ifs at h <;> cases h <;> subst kk <;> exact ⟨rfl, rfl⟩

theorem encode_of_decodeF {x : Nibble} {kk : Byte} (h : decodeF x kk = .ok i) :
    i.wellFormed = true ∧ encode i = 0xF#4 ++ x ++ kk := by
  unfold decodeF at h
  split_ifs at h <;> cases h <;> subst kk <;> exact ⟨rfl, rfl⟩

/-- A word that decodes is the word of its instruction. -/
theorem encode_of_decodeWord (h : decodeWord w = .ok i) : i.wellFormed = true ∧ encode i = w := by
  unfold decodeWord at h
  split at h
  case h_1 hop =>
    rw [← nnn_eq_word (o := 0x0#4) hop] at h ⊢
    exact encode_of_decode0 h
  case h_2 hop | h_3 hop | h_11 hop | h_12 hop => cases h; exact ⟨rfl, nnn_eq_word hop⟩
  case h_4 hop | h_5 hop | h_7 hop | h_8 hop | h_13 hop => cases h; exact ⟨rfl, xkk_eq_word hop⟩
  case h_6 hop | h_10 hop =>
    split_ifs at h with hn
    cases h; exact ⟨rfl, xy0_eq_word hop hn⟩
  case h_14 hop => cases h; exact ⟨rfl, xyn_eq_word hop⟩
  case h_9 hop => exact xyn_eq_word (o := 0x8#4) hop ▸ encode_of_decode8 h
  case h_15 hop => exact xkk_eq_word (o := 0xE#4) hop ▸ encode_of_decodeE h
  case h_16 =>
    have hop : (opField w).toNat = 0xF := by have := (opField w).isLt; grind
    exact xkk_eq_word (o := 0xF#4) hop ▸ encode_of_decodeF h

/-- Settles O4: the encoder writes back the fields that the decoder read, group by group. -/
theorem encodeOfDecode : Obligations.EncodeOfDecode := by
  unfold Obligations.EncodeOfDecode
  exact fun _ _ => encode_of_decodeWord

/-! ### The words that are no instruction -/

theorem Decoded.forall_ne_ok_iff {d : Decoded} : (∀ i, d ≠ .ok i) ↔ d.instr? = none := by
  cases d <;> simp [Decoded.instr?]

theorem decode0_instr?_ne_none (w : Word) : (decode0 w).instr? ≠ none := by
  unfold decode0
  split_ifs <;> simp [Decoded.instr?]

/-- `5XYn` and `9XYn` are instructions at `n = 0` alone. -/
theorem ite_instr?_eq_none_iff {n : Nibble} {why : Reject} :
    (if n = 0 then Decoded.ok i else .rejected why).instr? = none ↔ n.toNat ≠ 0 := by
  split_ifs <;> simp_all [Decoded.instr?, ← BitVec.toNat_inj]

theorem decode8_instr?_eq_none_iff {x y n : Nibble} :
    (decode8 x y n).instr? = none ↔ n.toNat ∈ [0x8, 0x9, 0xA, 0xB, 0xC, 0xD, 0xF] := by
  unfold decode8
  split
  case h_10 =>
    have := n.isLt
    refine iff_of_true rfl ?_
    simp only [List.mem_cons, List.not_mem_nil, or_false]
    grind
  all_goals rename_i hn; simp [hn, Decoded.instr?]

theorem decodeE_instr?_eq_none_iff {x : Nibble} {kk : Byte} :
    (decodeE x kk).instr? = none ↔ kk.toNat ∉ [0x9E, 0xA1] := by
  unfold decodeE
  split_ifs <;> simp_all [Decoded.instr?, ← BitVec.toNat_inj]

theorem decodeF_instr?_eq_none_iff {x : Nibble} {kk : Byte} :
    (decodeF x kk).instr? = none ↔ kk.toNat ∉ [0x07, 0x0A, 0x15, 0x18, 0x1E, 0x29, 0x33, 0x55, 0x65] := by
  unfold decodeF
  split_ifs <;> simp_all [Decoded.instr?, ← BitVec.toNat_inj]

/-- Settles O2: only the groups 5, 8, 9, E and F reject, each by its own row of the table. -/
theorem rejectedWordsAreExactlyTheIllegalOnes : Obligations.RejectedWordsAreExactlyTheIllegalOnes := by
  unfold Obligations.RejectedWordsAreExactlyTheIllegalOnes
  intro w
  rw [Decoded.forall_ne_ok_iff, ← opField_toNat, ← nField_toNat, ← kkField_toNat]
  unfold decodeWord
  split
  case h_1 hop => simp [hop, decode0_instr?_ne_none]
  case h_2 hop | h_3 hop | h_4 hop | h_5 hop | h_7 hop | h_8 hop | h_11 hop | h_12 hop | h_13 hop | h_14 hop =>
    simp [hop, Decoded.instr?]
  case h_6 hop | h_10 hop => rw [ite_instr?_eq_none_iff]; simp [hop]
  case h_9 hop => rw [decode8_instr?_eq_none_iff]; simp [hop]
  case h_15 hop => rw [decodeE_instr?_eq_none_iff]; simp [hop]
  case h_16 =>
    have hop : (opField w).toNat = 0xF := by have := (opField w).isLt; grind
    rw [decodeF_instr?_eq_none_iff]; simp [hop]

/-! ### Sample words -/

/-- Settles O1: fixed words, read by the decoder. -/
theorem sampleWordsDecode : Obligations.SampleWordsDecode := by
  unfold Obligations.SampleWordsDecode
  decide

end Sys2Proof
end

section
/-! The engine's step (40_dispatch.md): what turns a step away, how one past the gates runs the word it fetched, and
where a skip leaves the PC. -/

namespace Sys2Proof.Machine

variable {d : Draws} {i : Instr} {s : State}

/-! ### The gates before an instruction (60_exceptions.md R116) -/

/-- While FAULTED no step has a specified outcome (40_dispatch.md R59). -/
theorem State.singleStep_of_faulted (hf : s.faulted = true) : s.singleStep d = .fault .unspecifiedAfterFatal :=
  if_pos hf

/-- A step that finds the machine stopped, or the run flag contended, is turned away (40_dispatch.md R60, R61). -/
theorem State.singleStep_of_locked (hf : s.faulted = false) (hg : s.run = false ∨ s.contended d.runLocked = true) :
    s.singleStep d = .next { s with result := .executionLocked } := by
  rw [State.singleStep, if_neg (by simp [hf]), if_pos hg, State.raise_eq,
    show ErrorKind.executionLocked.fatal = false from rfl, Bool.or_false]

theorem State.Ready.not_locked (hr : s.Ready d) : ¬(s.run = false ∨ s.contended d.runLocked = true) := by
  obtain ⟨-, hrun, hc⟩ := hr
  rcases hc with hc | hc <;> simp [State.contended, hrun, hc]

/-- All that `single_step` can be once it is past the gates: its word is missing, or it runs the word. -/
theorem State.Ready.singleStep_spec (hr : s.Ready d) :
    (s.fetch16 s.pc.toNat = none ∧ s.singleStep d = .fault .memPanic) ∨
    ∃ w, s.fetch16 s.pc.toNat = some w ∧ s.singleStep d = (s.inBody d).runWord w := by
  rcases s.singleStep_spec d with ⟨hf, -⟩ | ⟨-, hg, -⟩ | ⟨-, hmiss⟩ | ⟨-, hrun⟩
  · simp [hr.not_faulted] at hf
  · exact absurd hg hr.not_locked
  · exact .inl hmiss
  · exact .inr hrun

/-- Settles O7: a stopped machine turns the step away. -/
theorem stoppedStepReturnsExecutionLocked : Obligations.StoppedStepReturnsExecutionLocked := by
  unfold Obligations.StoppedStepReturnsExecutionLocked
  exact fun s d hf hrun => State.singleStep_of_locked hf (.inl hrun)

/-- Settles O8: the latch, the contended run flag, and the fetch, each by the rule of its gate. -/
theorem gatedStepsRunNothing : Obligations.GatedStepsRunNothing := by
  unfold Obligations.GatedStepsRunNothing
  refine fun s d => ⟨State.singleStep_of_faulted, fun hf _ hl hd => ?_, fun hr hmiss => ?_⟩
  · exact State.singleStep_of_locked hf (.inr (by simp [State.contended, hl, hd]))
  · rcases hr.singleStep_spec with ⟨-, h⟩ | ⟨w, hw, -⟩
    · exact h
    · simp [hmiss] at hw

/-! ### The word at the PC -/

/-- The word of the two bytes at an address (20_memory.md R33). -/
theorem State.fetch16_of_bytes {a : Nat} {hi lo : Byte} (hhi : s.memRead a = some hi)
    (hlo : s.memRead (a + 1) = some lo) : s.fetch16 a = some (wordOfBytes hi lo) := by
  rw [State.fetch16, hhi, hlo]

/-- A word without an instruction raises InvalidInstruction (40_dispatch.md R64). -/
theorem State.runWord_of_illegal {w : Word} (h : ∀ i, decodeWord w ≠ .ok i) :
    s.runWord w = s.raise .invalidInstruction := by
  rw [State.runWord]
  cases hd : decodeWord w with
  | ok i => exact absurd hd (h i)
  | rejected why => rfl

/-- Settles O9: the step is past the gates, so it runs the illegal word after the PC advance. -/
theorem illegalWordRaisesInvalidInstruction : Obligations.IllegalWordRaisesInvalidInstruction := by
  unfold Obligations.IllegalWordRaisesInvalidInstruction
  intro s d hi lo hr hhi hlo hillegal
  have hfetch := State.fetch16_of_bytes hhi hlo
  rcases hr.singleStep_spec with ⟨hmiss, -⟩ | ⟨w, hw, hstep⟩
  · simp [hfetch] at hmiss
  · obtain rfl : wordOfBytes hi lo = w := Option.some.inj (hfetch.symm.trans hw)
    rw [hstep, State.runWord_of_illegal hillegal, State.raise_eq,
      show ErrorKind.invalidInstruction.fatal = true from rfl, Bool.or_true]
    rfl

/-! ### The machine's step -/

/-- A step performs the oldest event given to the machine (60_exceptions.md R125; log 3). -/
theorem step_of_inputs_cons {e : Event} {rest : List Event} (h : s.inputs = e :: rest) :
    step s = perform e { s with inputs := rest } := by
  rw [step, State.nextEvent, h]

/-- Taking an event leaves the gates as they are. -/
theorem State.Ready.setInputs (h : s.Ready d) (es : List Event) : { s with inputs := es }.Ready d :=
  { h with }

/-- Settles O6: the event is an engine step past the gates, so it executes the instruction of the word it fetches. -/
theorem stepRunsTheDecodedInstruction : Obligations.StepRunsTheDecodedInstruction := by
  unfold Obligations.StepRunsTheDecodedInstruction
  intro s d rest hi lo i hinputs hr hhi hlo hd
  rw [step_of_inputs_cons hinputs]
  exact State.singleStep_of_ready (hr.setInputs rest) (State.fetch16_of_bytes hhi hlo) hd

/-! ### Skips -/

/-- The key or digit of a register is its value modulo 16 (42_skip.md R81, 44_index_memory.md R99). -/
theorem State.lowNibble_eq (s : State) (x : Nibble) : s.lowNibble x = BitVec.ofNat 4 ((s.getV x).toNat % 16) := by
  apply BitVec.eq_of_toNat_eq
  simp [State.lowNibble]

/-- The six skip instructions with the given operands, each with its condition (42_skip.md R77 to R82). -/
def State.skipConditions (s : State) (x y : Nibble) (kk : Byte) : List (Instr × Bool) :=
  [(.seVxKk x kk, decide (s.getV x = kk)), (.sneVxKk x kk, decide (s.getV x ≠ kk)),
   (.seVxVy x y, decide (s.getV x = s.getV y)), (.sneVxVy x y, decide (s.getV x ≠ s.getV y)),
   (.skp x, decide (s.key (BitVec.ofNat 4 ((s.getV x).toNat % 16)) = .pressed)),
   (.sknp x, decide (s.key (BitVec.ofNat 4 ((s.getV x).toNat % 16)) ≠ .pressed))]

/-- The conditions read registers and keys alone. -/
theorem State.skipConditions_inBody (s : State) (d : Draws) (x y : Nibble) (kk : Byte) :
    (s.inBody d).skipConditions x y kk = s.skipConditions x y kk := rfl

/-- Each skip instruction is a skip on its condition. -/
theorem exec_of_mem_skipConditions {x y : Nibble} {kk : Byte} {p : Instr × Bool} (hp : p ∈ s.skipConditions x y kk) :
    exec p.1 s = s.skipIf p.2 := by
  simp only [State.skipConditions, ← State.lowNibble_eq, List.mem_cons, List.not_mem_nil, or_false] at hp
  rcases hp with rfl | rfl | rfl | rfl | rfl | rfl
  · rfl
  · exact congrArg s.skipIf decide_not.symm
  · rfl
  · exact congrArg s.skipIf decide_not.symm
  · rfl
  · exact congrArg s.skipIf decide_not.symm

/-- A skip on the advanced PC, counted from the instruction's own address (40_dispatch.md R66). -/
theorem State.skipIf_inBody (s : State) (d : Draws) (c : Bool) :
    ∃ t, (s.inBody d).skipIf c = .next t ∧
      t.pc.toNat = if c = true then (s.pc.toNat + 4) % 0x1000 else (s.pc.toNat + 2) % 0x1000 := by
  have hbody : (s.inBody d).pc.toNat = (s.pc.toNat + 2) % 0x1000 := ofNat_mask12_toNat _
  refine ⟨_, State.skipIf_spec _ c, ?_⟩
  cases c with
  | false => exact hbody
  | true =>
    calc (BitVec.ofNat 16 (mask12 ((s.inBody d).pc.toNat + 2))).toNat
        = ((s.pc.toNat + 2) % 0x1000 + 2) % 0x1000 := by rw [ofNat_mask12_toNat, hbody]
      _ = (s.pc.toNat + 4) % 0x1000 := by omega

/-- Settles O23: the step executes a skip on its condition, which the PC advance does not touch. -/
theorem skipCountsFromTheInstruction : Obligations.SkipCountsFromTheInstruction := by
  unfold Obligations.SkipCountsFromTheInstruction
  intro s d w x y kk hr hw p hp hd
  have hcond : p ∈ (s.inBody d).skipConditions x y kk := hp
  rw [State.singleStep_of_ready hr hw hd, exec_of_mem_skipConditions hcond]
  exact s.skipIf_inBody d p.2

end Sys2Proof.Machine
end

section
/-! Control transfer (41_flow.md): where a PC write leaves the machine, what RET and CALL do on either side of the
stack's bounds, and the jumps as PC writes. -/

namespace Sys2Proof.Machine

variable {s t u : State} {nnn : Addr}

/-! ### PC writes and fatal errors -/

/-- A fatal error latches FAULTED, whatever the latch held (60_exceptions.md R114, decision D19). -/
theorem State.raise_of_fatal {e : ErrorKind} (h : e.fatal = true) :
    s.raise e = .next { s with result := e, faulted := true } := by
  rw [State.raise_eq, h, Bool.or_true]

/-- All that a completed PC write does: the masked PC, the returned kind, and no other field. -/
theorem State.complete_setPc_spec (s : State) (n : Nat) :
    ∃ t, (s.setPc n).complete = .next t ∧ t.pc.toNat = n % 0x1000 ∧
      t = { s with pc := t.pc, result := .none } ∧ ∀ a, t.memRead a = s.memRead a :=
  ⟨_, rfl, s.setPc_toNat n, rfl, fun _ => rfl⟩

/-- A 12-bit target is not changed by the mask (30_encoding.md R50). -/
theorem targetOf_mod (nnn : Addr) : targetOf nnn % 0x1000 = nnn.toNat := Nat.mod_eq_of_lt nnn.isLt

/-- A PC write of a masked word writes that word (10_state.md R12). -/
theorem State.setPc_of_lt (s : State) {w : Word} (h : w.toNat < 0x1000) : s.setPc w.toNat = { s with pc := w } := by
  rw [State.setPc, mask12_of_lt h, BitVec.ofNat_toNat, BitVec.setWidth_eq]

/-! ### RET and CALL -/

/-- RET on a stack with a newest entry (41_flow.md R70). -/
theorem exec_ret_of_cons {v : Word} {rest : List Word} (hs : s.stack = v :: rest) :
    exec .ret s = ({ s with stack := rest }.setPc v.toNat).complete := by
  show execRet s = _
  rw [execRet, State.pop?, hs]

/-- RET on an empty stack (41_flow.md R70). -/
theorem exec_ret_of_nil (hs : s.stack = []) : exec .ret s = s.raise .stackUnderflow := by
  show execRet s = _
  rw [execRet, State.pop?, hs]

/-- CALL on a stack with room (41_flow.md R74). -/
theorem exec_call_of_room (h : s.params.stackDepth ≠ some s.stack.length) :
    exec (.call nnn) s = ((s.push s.pc).setPc (targetOf nnn)).complete :=
  if_neg (mt s.stackFull_iff.1 h)

/-- CALL on a full stack (41_flow.md R74, decision D3). -/
theorem exec_call_of_full (h : s.params.stackDepth = some s.stack.length) :
    exec (.call nnn) s = s.raise .stackOverflow :=
  if_pos (s.stackFull_iff.2 h)

/-- Settles O14: either rule of RET, the pop being a PC write to the popped entry. -/
theorem returnPopsOrUnderflows : Obligations.ReturnPopsOrUnderflows := by
  unfold Obligations.ReturnPopsOrUnderflows
  refine fun s => ⟨fun v rest hs => ?_, fun hs => ?_⟩
  · obtain ⟨t, hexec, hpc, hframe, hmem⟩ := { s with stack := rest }.complete_setPc_spec v.toNat
    have hstack : t.stack = rest := congrArg State.stack hframe
    exact ⟨t, (exec_ret_of_cons hs).trans hexec, hpc, hstack, by rw [hstack]; exact hframe, hmem⟩
  · rw [exec_ret_of_nil hs, State.raise_of_fatal rfl]

/-- Settles O17: either rule of CALL, the call being a PC write to its target after the push. -/
theorem callPushesOrOverflows : Obligations.CallPushesOrOverflows := by
  unfold Obligations.CallPushesOrOverflows
  refine fun nnn s => ⟨fun hroom => ?_, fun hfull => ?_⟩
  · obtain ⟨t, hexec, hpc, hframe, hmem⟩ := (s.push s.pc).complete_setPc_spec (targetOf nnn)
    have hstack : t.stack = s.pc :: s.stack := congrArg State.stack hframe
    exact ⟨t, (exec_call_of_room hroom).trans hexec, hstack, hpc.trans (targetOf_mod nnn),
      by rw [hstack]; exact hframe, hmem⟩
  · rw [exec_call_of_full hfull, State.raise_of_fatal rfl]

/-- Settles O18: the entry that RET pops is the PC that CALL pushed, and the mask of the PC write keeps it. -/
theorem returnUndoesCall : Obligations.ReturnUndoesCall := by
  unfold Obligations.ReturnUndoesCall
  intro nnn s t u hpc hroom hcall hstack
  rw [exec_call_of_room hroom] at hcall
  have hu : u.stack = s.pc :: s.stack := by rw [hstack, State.complete_next hcall]; rfl
  rw [exec_ret_of_cons hu, State.setPc_of_lt _ hpc]
  rfl

/-! ### NOP and the jumps -/

/-- Settles O15: the word is `encode .nop`, and the body is `complete` alone. -/
theorem nopOnlyAdvances : Obligations.NopOnlyAdvances := by
  unfold Obligations.NopOnlyAdvances
  exact ⟨decodeWord_encode (i := .nop) rfl, fun s => ⟨_, s.complete_eq, rfl, fun _ => rfl⟩⟩

/-- Settles O16: the words of SYS and JP, and both jumps as PC writes to `NNN`. -/
theorem jumpsGoToTheirTarget : Obligations.JumpsGoToTheirTarget := by
  unfold Obligations.JumpsGoToTheirTarget
  refine ⟨fun nnn hcls hret hnop => decodeWord_encode (i := .sys nnn) (wellFormed_sys_iff.2 ⟨hcls, hret, hnop⟩),
    fun nnn => decodeWord_encode (i := .jp nnn) rfl, fun nnn s i hi => ?_⟩
  have hjump : exec i s = (s.setPc (targetOf nnn)).complete := by
    simp only [List.mem_cons, List.not_mem_nil, or_false] at hi
    rcases hi with rfl | rfl <;> rfl
  rw [hjump, ← targetOf_mod nnn]
  exact s.complete_setPc_spec (targetOf nnn)

/-- The high nibble of `NNN`, which names BNNN's register (30_encoding.md R49, 90_conflicts.md C2). -/
theorem highNibble_eq (nnn : Addr) : nnn.extractLsb' 8 4 = BitVec.ofNat 4 (nnn.toNat / 256) := by
  apply BitVec.eq_of_toNat_eq
  simp [BitVec.extractLsb'_toNat, Nat.shiftRight_eq_div_pow]

/-- Settles O19: a PC write to the sum of the target and the offset, whose register is the high nibble of `NNN`. -/
theorem jumpWithOffsetAddsARegister : Obligations.JumpWithOffsetAddsARegister := by
  unfold Obligations.JumpWithOffsetAddsARegister
  refine ⟨fun nnn => decodeWord_encode (i := .jpV0 nnn) rfl, fun nnn s => ?_⟩
  rw [← highNibble_eq]
  exact s.complete_setPc_spec (targetOf nnn + (s.jumpOffset nnn).toNat)

end Sys2Proof.Machine
end

section
/-! The skips (42_skip.md): each instruction that skips when a condition holds stands beside the one that skips when it
does not, and both are told by one lemma over the condition. -/

namespace Sys2Proof.Machine

variable {s : State}

/-! ### A skip and its opposite -/

/-- All that a skip on a condition does: the masked PC when it is taken, the returned kind, and no other field
(42_skip.md R76). -/
theorem State.skipIf_decide_spec (s : State) (P : Prop) [Decidable P] :
    ∃ t, s.skipIf (decide P) = .next t ∧ t.pc.toNat = (if P then (s.pc.toNat + 2) % 0x1000 else s.pc.toNat) ∧
      t = { s with pc := t.pc, result := .none } ∧ ∀ a, t.memRead a = s.memRead a := by
  refine ⟨_, s.skipIf_spec _, ?_, rfl, fun _ => rfl⟩
  by_cases h : P
  · simpa only [h, decide_true, if_true] using ofNat_mask12_toNat (s.pc.toNat + 2)
  · simp only [h, decide_false, if_false, Bool.false_eq_true]

/-- An instruction that skips when `P` holds, and one that skips when it does not. -/
theorem exec_skip_and_opposite (x y : Nibble) (kk : Byte) {i j : Instr} {P : Prop} [Decidable P]
    (hi : (i, decide P) ∈ s.skipConditions x y kk) (hj : (j, decide (¬P)) ∈ s.skipConditions x y kk) :
    (∃ t, exec i s = .next t ∧ t.pc.toNat = (if P then (s.pc.toNat + 2) % 0x1000 else s.pc.toNat) ∧
      t = { s with pc := t.pc, result := .none } ∧ ∀ a, t.memRead a = s.memRead a) ∧
    (∃ t, exec j s = .next t ∧ t.pc.toNat = (if P then s.pc.toNat else (s.pc.toNat + 2) % 0x1000) ∧
      t = { s with pc := t.pc, result := .none } ∧ ∀ a, t.memRead a = s.memRead a) := by
  rw [exec_of_mem_skipConditions hi, exec_of_mem_skipConditions hj]
  exact ⟨s.skipIf_decide_spec P, by simpa only [ite_not] using s.skipIf_decide_spec (¬P)⟩

/-! ### The words of a register skip that are no instruction -/

/-- `5XYn` with another low nibble than 0 (30_encoding.md R53). -/
theorem decodeWord_5xyn_of_ne_zero (x y : Nibble) {n : Nibble} (hn : n ≠ 0) :
    decodeWord (0x5#4 ++ x ++ y ++ n) = .rejected .illegal5XYn := by
  rw [decodeWord, opField_xyn, nField_xyn]
  exact if_neg hn

/-- `9XYn` with another low nibble than 0 (30_encoding.md R53). -/
theorem decodeWord_9xyn_of_ne_zero (x y : Nibble) {n : Nibble} (hn : n ≠ 0) :
    decodeWord (0x9#4 ++ x ++ y ++ n) = .rejected .illegal9XYn := by
  rw [decodeWord, opField_xyn, nField_xyn]
  exact if_neg hn

/-! ### The statements -/

/-- Settles O20: the words of the two instructions, and the pair of skips on `V[X] = KK`. -/
theorem immediateSkips : Obligations.ImmediateSkips := by
  unfold Obligations.ImmediateSkips
  refine fun x kk => ⟨decodeWord_encode (i := .seVxKk x kk) rfl, decodeWord_encode (i := .sneVxKk x kk) rfl,
    fun s => ?_⟩
  exact exec_skip_and_opposite x 0 kk (by simp [State.skipConditions]) (by simp [State.skipConditions])

/-- Settles O21: the words of the two instructions, the rejected low nibbles, and the pair of skips on `V[X] = V[Y]`. -/
theorem registerSkips : Obligations.RegisterSkips := by
  unfold Obligations.RegisterSkips
  refine fun x y => ⟨decodeWord_encode (i := .seVxVy x y) rfl, decodeWord_encode (i := .sneVxVy x y) rfl,
    fun n hn i => ⟨by simp [decodeWord_5xyn_of_ne_zero x y hn], by simp [decodeWord_9xyn_of_ne_zero x y hn]⟩,
    fun s => ?_⟩
  exact exec_skip_and_opposite x y 0 (by simp [State.skipConditions]) (by simp [State.skipConditions])

/-- Settles O22: the words of the two instructions, and the pair of skips on the named key being pressed. -/
theorem keySkips : Obligations.KeySkips := by
  unfold Obligations.KeySkips
  refine fun x => ⟨decodeWord_encode (i := .skp x) rfl, decodeWord_encode (i := .sknp x) rfl, fun s => ?_⟩
  exact exec_skip_and_opposite x 0 0 (by simp [State.skipConditions]) (by simp [State.skipConditions])

end Sys2Proof.Machine
end

section
/-! Register loads and arithmetic (43_alu.md): what a write of one register leaves, what a write of a result and its flag
leaves, and the results and flags as numbers. -/

namespace Sys2Proof.Machine

/-! ### Register writes -/

/-- All that a completed register write does: the register, the returned kind, and no other field (43_alu.md R85). -/
theorem State.complete_setV_spec (s : State) (x : Nibble) (b : Byte) :
    ∃ t, (s.setV x b).complete = .next t ∧ t.getV x = b ∧ (∀ r, r ≠ x → t.getV r = s.getV r) ∧
      t = { s with v := t.v, result := .none } ∧ ∀ a, t.memRead a = s.memRead a :=
  ⟨_, rfl, s.getV_setV_same x b, fun _ hr => s.getV_setV_ne b hr, rfl, fun _ => rfl⟩

/-- All that a completed write of a result and its flag does, the values told as numbers: VF is written last, so at
`X = 0xF` it holds the flag (43_alu.md R84, decision D12). -/
theorem State.complete_setResultAndFlag_spec (s : State) (x : Nibble) {result flag : Byte} {m n : Nat}
    (hresult : result.toNat = m) (hflag : flag.toNat = n) :
    ∃ t, (s.setResultAndFlag x result flag).complete = .next t ∧ (x ≠ 0xF → (t.getV x).toNat = m) ∧
      (t.getV 0xF).toNat = n ∧ (∀ r, r ≠ x → r ≠ 0xF → t.getV r = s.getV r) ∧
      t = { s with v := t.v, result := .none } ∧ ∀ a, t.memRead a = s.memRead a := by
  refine ⟨_, rfl, fun hx => ?_, ?_, fun r hr hvf => ?_, rfl, fun _ => rfl⟩
  · have hget : ((s.setV x result).setV vf flag).getV x = result :=
      (State.getV_setV_ne _ flag hx).trans (s.getV_setV_same x result)
    exact (congrArg BitVec.toNat hget).trans hresult
  · exact (congrArg BitVec.toNat (State.getV_setV_same (s.setV x result) vf flag)).trans hflag
  · exact (State.getV_setV_ne (s.setV x result) flag hvf).trans (s.getV_setV_ne result hr)

/-! ### Flags as numbers -/

/-- The flag of a decided condition. -/
theorem flagByte_decide_toNat (P : Prop) [Decidable P] : (flagByte (decide P)).toNat = if P then 1 else 0 := by
  by_cases h : P <;> simp [flagByte, h]

/-- The carry of 8XY4 (43_alu.md R91). -/
theorem carryFlag_toNat (a b : Byte) : (carryFlag a b).toNat = if a.toNat + b.toNat > 255 then 1 else 0 :=
  flagByte_decide_toNat _

/-- The strict comparison of 8XY5 and 8XY7 (43_alu.md R92, R94, decision D14). -/
theorem greaterFlag_toNat (a b : Byte) : (greaterFlag a b).toNat = if a.toNat > b.toNat then 1 else 0 :=
  flagByte_decide_toNat _

/-- The bit that 8XY6 shifts out (43_alu.md R93). -/
theorem lowBitFlag_toNat (src : Byte) : (lowBitFlag src).toNat = src.toNat % 2 :=
  (BitVec.toNat_and src 1).trans (Nat.and_one_is_mod _)

/-- The bit that 8XYE shifts out (43_alu.md R95). -/
theorem highBitFlag_toNat (src : Byte) : (highBitFlag src).toNat = src.toNat / 128 :=
  (BitVec.toNat_ushiftRight src 7).trans (Nat.shiftRight_eq_div_pow _ 7)

/-! ### Results as numbers -/

/-- The difference of two bytes, kept nonnegative by the modulus (43_alu.md R92). -/
theorem sub_toNat (a b : Byte) : (a - b).toNat = (a.toNat + 256 - b.toNat) % 256 := by
  rw [BitVec.toNat_sub]
  omega

/-- One bit to the right is half (43_alu.md R93). -/
theorem ushiftRight_one_toNat (src : Byte) : (src >>> 1).toNat = src.toNat / 2 :=
  (BitVec.toNat_ushiftRight src 1).trans (Nat.shiftRight_eq_div_pow _ 1)

/-- One bit to the left is the double modulo 256 (43_alu.md R95). -/
theorem shiftLeft_one_toNat (src : Byte) : (src <<< 1).toNat = src.toNat * 2 % 256 := by
  rw [BitVec.toNat_shiftLeft, Nat.shiftLeft_eq, Nat.pow_one]

/-! ### The statements -/

/-- Settles O24: the words of the five instructions, each a write of its value to `V[X]`. -/
theorem loadsAndLogicWriteOneRegister : Obligations.LoadsAndLogicWriteOneRegister := by
  unfold Obligations.LoadsAndLogicWriteOneRegister
  refine fun x y kk => ⟨decodeWord_encode (i := .ldVxKk x kk) rfl, decodeWord_encode (i := .ldVxVy x y) rfl,
    decodeWord_encode (i := .orVxVy x y) rfl, decodeWord_encode (i := .andVxVy x y) rfl,
    decodeWord_encode (i := .xorVxVy x y) rfl, fun s p hp => ?_⟩
  have hwrite : exec p.1 s = (s.setV x p.2).complete := by
    simp only [List.mem_cons, List.not_mem_nil, or_false] at hp
    rcases hp with rfl | rfl | rfl | rfl | rfl <;> rfl
  rw [hwrite]
  exact s.complete_setV_spec x p.2

/-- Settles O25: the word of the instruction, and a write of the sum to `V[X]`. -/
theorem addImmediateWraps : Obligations.AddImmediateWraps := by
  unfold Obligations.AddImmediateWraps
  refine fun x kk => ⟨decodeWord_encode (i := .addVxKk x kk) rfl, fun s => ?_⟩
  obtain ⟨t, hexec, hx, hrest⟩ := s.complete_setV_spec x (s.getV x + kk)
  exact ⟨t, hexec, (congrArg BitVec.toNat hx).trans (BitVec.toNat_add _ _), hrest⟩

/-- Settles O26: a write of the sum and the carry. -/
theorem addSetsCarry : Obligations.AddSetsCarry := by
  unfold Obligations.AddSetsCarry
  exact fun x y s => s.complete_setResultAndFlag_spec x (BitVec.toNat_add _ _) (carryFlag_toNat _ _)

/-- Settles O27: either difference is written with the strict comparison of its operands. -/
theorem subtractionsSetStrictFlag : Obligations.SubtractionsSetStrictFlag := by
  unfold Obligations.SubtractionsSetStrictFlag
  exact fun x y s => ⟨s.complete_setResultAndFlag_spec x (sub_toNat _ _) (greaterFlag_toNat _ _),
    s.complete_setResultAndFlag_spec x (sub_toNat _ _) (greaterFlag_toNat _ _)⟩

/-- Settles O28: either shift of the model's `shiftSource` is written with the bit that it drops. -/
theorem shiftsMoveOneBit : Obligations.ShiftsMoveOneBit := by
  unfold Obligations.ShiftsMoveOneBit
  intro x y s src hsrc
  have hsource : src = (s.shiftSource x y).toNat := hsrc
  subst hsource
  exact ⟨s.complete_setResultAndFlag_spec x (ushiftRight_one_toNat _) (lowBitFlag_toNat _),
    s.complete_setResultAndFlag_spec x (shiftLeft_one_toNat _) (highBitFlag_toNat _)⟩

end Sys2Proof.Machine
end

section
/-! The index register and memory transfers (44_index_memory.md): what an index write, FX1E's flag and the
post-increment leave, and what FX33, FX55 and FX65 do where all their bytes exist. -/

namespace Sys2Proof.Machine

variable {s t u : State} {x : Nibble}

/-! ### The index register -/

/-- All that a completed index write of a masked number does: the number, the returned kind, and no other field. -/
theorem State.complete_setIndex_spec (s : State) {n : Nat} (hn : n < 0x1000) :
    ∃ t, (s.setIndex n).complete = .next t ∧ t.index.toNat = n ∧
      t = { s with index := t.index, result := .none } ∧ ∀ a, t.memRead a = s.memRead a :=
  ⟨_, rfl, (s.setIndex_toNat n).trans (Nat.mod_eq_of_lt hn), rfl, fun _ => rfl⟩

/-- The digit of a register as a number (R99). -/
theorem State.lowNibble_toNat (s : State) (x : Nibble) : (s.lowNibble x).toNat = (s.getV x).toNat % 16 := by
  rw [State.lowNibble_eq, BitVec.toNat_ofNat]
  exact Nat.mod_mod _ 16

/-- Settles O30: the words of both instructions, each a write of a number below 0x1000 to I. -/
theorem indexLoads : Obligations.IndexLoads := by
  unfold Obligations.IndexLoads
  refine ⟨fun nnn => decodeWord_encode (i := .ldI nnn) rfl, fun x => decodeWord_encode (i := .ldFVx x) rfl,
    fun nnn x s p hp => ?_⟩
  simp only [List.mem_cons, List.not_mem_nil, or_false] at hp
  rcases hp with rfl | rfl
  · exact s.complete_setIndex_spec nnn.isLt
  · rw [← State.lowNibble_toNat]
    have hdigit := (s.lowNibble x).isLt
    exact s.complete_setIndex_spec (n := 5 * (s.lowNibble x).toNat) (by omega)

/-! ### FX1E's flag (R98, decision D15) -/

/-- VF after FX1E's flag is set. -/
theorem State.setIndexOverflowFlag_getV_vf (s : State) (sum : Nat) :
    (s.setIndexOverflowFlag sum).getV vf = if s.quirk = false ∧ sum > 0xFFF then 1
      else if s.quirk = false ∧ s.params.fx1eNoOverflow = .zero then 0 else s.getV vf := by
  unfold State.setIndexOverflowFlag
  cases hq : s.quirk with
  | true => simp
  | false =>
    by_cases hsum : 0xFFF < sum
    · simp [hsum]
    · cases hp : s.params.fx1eNoOverflow <;> simp [hsum]

/-- FX1E's flag is written to VF alone. -/
theorem State.setIndexOverflowFlag_frame (s : State) (sum : Nat) :
    s.setIndexOverflowFlag sum = { s with v := (s.setIndexOverflowFlag sum).v } ∧
    ∀ r, r ≠ vf → (s.setIndexOverflowFlag sum).getV r = s.getV r := by
  rcases s.setIndexOverflowFlag_spec sum with h | ⟨b, h⟩ <;> rw [h]
  · exact ⟨rfl, fun _ _ => rfl⟩
  · exact ⟨rfl, fun _ hr => s.getV_setV_ne b hr⟩

/-- Settles O31: an index write and, after it, the flag. -/
theorem addToIndexReportsOverflow : Obligations.AddToIndexReportsOverflow := by
  unfold Obligations.AddToIndexReportsOverflow
  rintro x s sum rfl
  obtain ⟨hframe, hregs⟩ := (s.setIndex _).setIndexOverflowFlag_frame (s.index.toNat + (s.getV x).toNat)
  refine ⟨_, rfl, ?_, (s.setIndex _).setIndexOverflowFlag_getV_vf _, hregs, ?_, fun a => ?_⟩
  · rw [hframe]
    exact s.setIndex_toNat _
  · rw [hframe]
    rfl
  · rw [hframe]
    rfl

/-! ### Stores and loads that find all their bytes -/

/-- A store that finds all its bytes leaves them in memory (20_memory.md R36). -/
theorem State.storeBytes_holds {a : Nat} {bs : List Byte} (h : ∀ k, k < bs.length → s.backed (a + k) = true) :
    ∃ t, s.storeBytes a bs = some t ∧ s.Holds a bs t := by
  obtain ⟨t, ht, hholds⟩ := loaded_holds h
  cases hstore : s.storeBytes a bs with
  | none => rw [hstore] at ht; cases ht
  | some u => rw [hstore] at ht; cases ht; exact ⟨_, rfl, hholds⟩

/-- No byte of a list that fits the address space is written over by a later one. -/
theorem State.Holds.memRead_inside {a : Nat} {bs : List Byte} (h : s.Holds a bs t) (hlen : bs.length ≤ 0x1000)
    {k : Nat} (hk : k < bs.length) : t.memRead (a + k) = some bs[k] :=
  h.inside k hk fun _ hkj hj heq => Nat.ne_of_gt hkj (mask12_add_inj (by omega) (by omega) heq)

/-- A load that finds all its bytes answers them in order (20_memory.md R36). -/
theorem State.loadBytes_of_backed {a n : Nat} (h : ∀ k, k < n → s.backed (a + k) = true) :
    ∃ bs, s.loadBytes a n = some bs ∧ bs.length = n ∧ ∀ k (hk : k < bs.length), some bs[k] = s.memRead (a + k) := by
  rcases s.loadBytes_spec n a with ⟨-, k, hk, hb⟩ | ⟨bs, hbs, hall, hlen, hget⟩
  · rw [h k hk] at hb; cases hb
  · exact ⟨bs, hbs, hlen, fun k hk => by rw [hget k hk, s.memRead_backed _ (h k (hlen ▸ hk))]⟩

/-! ### The post-increment and the register transfers (R101, R102) -/

/-- The index register after the post-increment. -/
theorem State.advanceIndex_index (s : State) (x : Nibble) : (s.advanceIndex x).index =
    if s.quirk then BitVec.ofNat 16 ((s.index.toNat + x.toNat + 1) % 0x1000) else s.index := by
  rw [State.advanceIndex_spec]
  split <;> rfl

/-- The post-increment from a state that keeps QUIRK and the index register of `s`, as that of `s`. -/
theorem State.advanceIndex_of_eq (hq : u.quirk = s.quirk) (hi : u.index = s.index) :
    u.advanceIndex x = { u with index := (s.advanceIndex x).index } := by
  rw [u.advanceIndex_frame, State.advanceIndex_congr hq hi]

/-- FX55 whose store has found all its bytes: what the store leaves, and the post-increment. -/
theorem exec_ldMiVx_of_stored (h : s.storeBytes s.index.toNat (s.registersUpTo x) = some u) :
    exec (.ldMiVx x) s = .next { u with index := (s.advanceIndex x).index, result := .none } := by
  obtain ⟨hframe, -⟩ := State.storeBytes_some h
  rw [exec, execLdMiVx, State.effective_eq, Nat.add_zero, h, Option.map_some, completeAccess_some,
    State.advanceIndex_of_eq (s := s) (by rw [hframe]) (by rw [hframe])]

/-- FX65 whose load has found all its bytes: what the register writes leave, and the post-increment. -/
theorem exec_ldVxMi_of_loaded {bs : List Byte} (h : s.loadBytes s.index.toNat (x.toNat + 1) = some bs)
    (hframe : s.setRegistersFrom 0 bs = { s with v := (s.setRegistersFrom 0 bs).v }) :
    exec (.ldVxMi x) s =
      .next { s.setRegistersFrom 0 bs with index := (s.advanceIndex x).index, result := .none } := by
  rw [exec, execLdVxMi, State.effective_eq, Nat.add_zero, h, Option.map_some, completeAccess_some,
    State.advanceIndex_of_eq (s := s) (by rw [hframe]) (by rw [hframe])]

/-! ### The statements about memory -/

/-- Settles O34: a store of the three digits at I. -/
theorem decimalDigitsAreStored : Obligations.DecimalDigitsAreStored := by
  unfold Obligations.DecimalDigitsAreStored
  intro x s hb
  obtain ⟨u, hu, hholds⟩ := s.storeBytes_holds (bs := decimalDigits (s.getV x)) hb
  have hread {k : Nat} (hk : k < 3) : u.memRead (s.effective k) = some (decimalDigits (s.getV x))[k] :=
    hholds.memRead_inside ((decimalDigits_length _).trans_le (by decide)) hk
  refine ⟨{ u with result := .none }, congrArg completeAccess hu, ?_, hholds.outside, ?_⟩
  · refine ⟨_, _, _, hread (k := 0) (by decide), hread (k := 1) (by decide), hread (k := 2) (by decide), ?_⟩
    simp [decimalDigits]
  · rw [hholds.frame]

/-- Settles O35: a store of the registers at I, and the post-increment. -/
theorem registersAreStored : Obligations.RegistersAreStored := by
  unfold Obligations.RegistersAreStored
  intro x s hb
  have hx := x.isLt
  have hlen := s.registersUpTo_length x
  obtain ⟨u, hu, hholds⟩ := s.storeBytes_holds (a := s.index.toNat) (bs := s.registersUpTo x)
    fun k hk => hb k (by omega)
  refine ⟨_, exec_ldMiVx_of_stored hu, fun k hk => ?_, fun a ha => ?_, s.advanceIndex_index x, ?_⟩
  · rw [← s.registersUpTo_getElem x k (by omega)]
    exact hholds.memRead_inside (by omega) (by omega)
  · exact hholds.outside a fun k hk => ha k (by omega)
  · rw [hholds.frame]

/-- Settles O36: a load of the bytes at I, a write of them to the registers, and the post-increment. -/
theorem registersAreLoaded : Obligations.RegistersAreLoaded := by
  unfold Obligations.RegistersAreLoaded
  intro x s hb
  have hx := x.isLt
  obtain ⟨bs, hbs, hlen, hget⟩ := s.loadBytes_of_backed (a := s.index.toNat) (n := x.toNat + 1)
    fun k hk => hb k (by omega)
  obtain ⟨hframe, hregs⟩ := s.setRegistersFrom_spec bs 0 (by omega)
  refine ⟨_, exec_ldVxMi_of_loaded hbs hframe, fun r hr => ?_, fun r hr => ?_, s.advanceIndex_index x, ?_, fun a => ?_⟩
  · exact (congrArg some ((hregs r).trans (dif_pos (by omega)))).trans (hget r.toNat (by omega))
  · exact (hregs r).trans (dif_neg (by omega))
  · rw [hframe]
  · exact State.memRead_congr (congrArg State.mem hframe) (congrArg State.params hframe) a

/-- An FX55 with a next state has found all its bytes (20_memory.md R30). -/
theorem State.backed_of_exec_ldMiVx (h : exec (.ldMiVx x) s = .next t) :
    ∀ k, k ≤ x.toNat → s.backed (s.index.toNat + k) = true := by
  intro k hk
  by_contra hb
  obtain ⟨-, hstore, -, -⟩ := missingByteIsMemPanic x 0 0 s
  rw [hstore.2 ((s.exists_not_backed_iff _ (· ≤ x.toNat)).1 ⟨k, hk, Bool.eq_false_iff.2 hb⟩)] at h
  cases h

/-- Settles O37: FX65 finds in memory what FX55 has left there (O35, O36). -/
theorem storedRegistersLoadBack : Obligations.StoredRegistersLoadBack := by
  unfold Obligations.StoredRegistersLoadBack
  intro x s t u h hmem hparams hindex
  have hb := State.backed_of_exec_ldMiVx h
  obtain ⟨t', ht', hstored, -, -, hframe⟩ := registersAreStored x s hb
  obtain rfl : t' = t := Host.Outcome.next.inj (ht'.symm.trans h)
  have hub (k : Nat) (hk : k ≤ x.toNat) : u.backed (u.index.toNat + k) = true := by
    rw [hindex, State.backed_congr (hparams.trans (congrArg State.params hframe))]
    exact hb k hk
  obtain ⟨w, hw, hloaded, -⟩ := registersAreLoaded x u hub
  refine ⟨w, hw, fun r hr => Option.some.inj ?_⟩
  calc some (w.getV r)
      = u.memRead (u.effective r.toNat) := hloaded r hr
    _ = t'.memRead (s.effective r.toNat) := by
      rw [State.effective_eq, State.effective_eq, hindex, State.memRead_congr hmem hparams]
    _ = some (s.getV (BitVec.ofNat 4 r.toNat)) := hstored r.toNat hr
    _ = some (s.getV r) := by rw [BitVec.ofNat_toNat, BitVec.setWidth_eq]

end Sys2Proof.Machine
end

section
/-! The random source (45_random.md): CXKK's masked byte. -/

namespace Sys2Proof.Machine

/-- A masked byte has no bit outside its mask (45_random.md R104). -/
theorem masked_and_not_mask (b kk : Byte) : b &&& kk &&& ~~~kk = 0 := by
  rw [BitVec.and_assoc, BitVec.and_not_self]
  exact BitVec.and_zero

/-- Settles O39: the word of the instruction, and a write of the masked byte from the state after one call. -/
theorem randomByteIsMasked : Obligations.RandomByteIsMasked := by
  unfold Obligations.RandomByteIsMasked
  refine fun x kk => ⟨decodeWord_encode (i := .rnd x kk) rfl, fun s => ?_⟩
  obtain ⟨t, hexec, hx, hregs, hframe, hmem⟩ := s.random.2.complete_setV_spec x (s.random.1 &&& kk)
  have hrng : t.rngState = (Config.rngNext s.rngState).1 := congrArg State.rngState hframe
  have hmask : t.getV x &&& ~~~kk = 0 := by rw [hx]; exact masked_and_not_mask _ kk
  refine ⟨t, hexec, hx, hrng, hmask, hregs, ?_, hmem⟩
  rw [hrng]
  exact hframe

end Sys2Proof.Machine
end

section
/-! The display (46_display.md): the pixels of a frame under the sprite bits of a draw, what a completed DXYN has drawn,
and what the same draw does to its own result. -/

namespace Sys2Proof.Machine

variable {s t u : State} {x y n : Nibble} {px : Fin 64} {py : Fin 32} {canvas : Canvas}

/-! ### Frames and flags -/

/-- A frame buffer is its pixels. -/
theorem frame_ext {fb fb' : FrameBuffer} (h : ∀ px py, pixel fb px py = pixel fb' px py) : fb = fb' :=
  Vector.ext fun i hi => Vector.ext fun j hj => h ⟨i, hi⟩ ⟨j, hj⟩

theorem flagByte_eq_one_iff (b : Bool) : flagByte b = 1 ↔ b = true := by
  cases b <;> simp [flagByte]

theorem flagByte_of_not {b : Bool} (h : ¬ b = true) : flagByte b = 0 := if_neg h

/-- The pixel value that a toggle reports under each collision sense (46_display.md R106, decision D10). -/
theorem collides_iff (sense : CollisionSense) (old : Bool) :
    collides sense old = true ↔ old = decide (sense = .onToOff) := by
  cases sense <;> simp [collides]

/-! ### The sprite bits of a draw -/

/-- Which pixels lie under sprite bits depends on memory, I and the two coordinates alone. -/
theorem State.spriteBit_congr (hmem : t.mem = s.mem) (hindex : t.index = s.index) (hx : t.getV x = s.getV x)
    (hy : t.getV y = s.getV y) (px : Fin 64) (py : Fin 32) :
    t.SpriteBit x y n px py ↔ s.SpriteBit x y n px py := by
  simp only [State.SpriteBit, hmem, hindex, hx, hy]

/-- The bytes of the rows drawn cover the pixels under the sprite's bits: a row that is not read has no pixel
(46_display.md R106, decision D9). -/
theorem exists_covers_iff_spriteBit {rows : List Byte} (hlen : rows.length = rowsDrawn (s.startRow y) n)
    (hget : ∀ k (hk : k < rows.length), rows[k] = s.mem.read (mask12 (s.index.toNat + k))) :
    (∃ r c, Covers (s.startColumn x) (s.startRow y) rows px py r c) ↔ s.SpriteBit x y n px py := by
  constructor
  · rintro ⟨r, c, hr, hc, hpy, hpx, hbit⟩
    obtain ⟨hrn, -⟩ := (s.lt_rowsDrawn_iff y n r).1 (hlen ▸ hr)
    rw [hget r hr] at hbit
    exact ⟨r, c, hrn, hc, hpy, hpx, hbit⟩
  · rintro ⟨r, c, hrn, hc, hpy, hpx, hbit⟩
    have hr : r < rows.length := hlen ▸ (s.lt_rowsDrawn_iff y n r).2 ⟨hrn, hpy ▸ py.isLt⟩
    exact ⟨r, c, hr, hc, hpy, hpx, (hget r hr).symm ▸ hbit⟩

/-! ### A completed draw -/

/-- `canvas` is the frame of `s` with the sprite of DXYN drawn on it, and `hit` reports the collisions
(46_display.md R106). -/
structure State.Drawn (s : State) (x y n : Nibble) (canvas : Canvas) : Prop where
  pixel_iff : ∀ px py, pixel canvas.fb px py = true ↔ ¬ (pixel s.fb px py = true ↔ s.SpriteBit x y n px py)
  hit_iff : canvas.hit = true ↔
    ∃ px py, s.SpriteBit x y n px py ∧ pixel s.fb px py = decide (s.params.collisionSense = .onToOff)

theorem State.Drawn.pixel_of_spriteBit (h : s.Drawn x y n canvas) (hbit : s.SpriteBit x y n px py) :
    pixel canvas.fb px py = !pixel s.fb px py := by
  rw [Bool.eq_iff_iff, h.pixel_iff, iff_true_right hbit, Bool.not_eq_true', Bool.not_eq_true]

theorem State.Drawn.pixel_of_not_spriteBit (h : s.Drawn x y n canvas) (hbit : ¬ s.SpriteBit x y n px py) :
    pixel canvas.fb px py = pixel s.fb px py := by
  rw [Bool.eq_iff_iff, h.pixel_iff, iff_false_right hbit, not_not]

/-- The rows read from memory, drawn on the frame. -/
theorem State.drawn_drawRows {rows : List Byte} (hlen : rows.length = rowsDrawn (s.startRow y) n)
    (hget : ∀ k (hk : k < rows.length), rows[k] = s.mem.read (mask12 (s.index.toNat + k))) :
    s.Drawn x y n (Canvas.drawRows s.params.collisionSense (s.startColumn x) (s.startRow y) rows
      { fb := s.fb, hit := false }) := by
  obtain ⟨hpixel, hhit⟩ := drawRows_spec s.params.collisionSense (s.startColumn x) rows (s.startRow y)
    { fb := s.fb, hit := false }
  refine ⟨fun px py => ?_, ?_⟩
  · rw [hpixel, exists_covers_iff_spriteBit hlen hget]
  · simp only [hhit, Bool.false_eq_true, false_or, exists_and_right, exists_covers_iff_spriteBit hlen hget,
      collides_iff]

/-- All that a DXYN with a next state does: it draws the sprite and takes the canvas into the state. -/
theorem exec_drw_next (h : exec (.drw x y n) s = .next t) :
    ∃ canvas, s.Drawn x y n canvas ∧ t = { s.finishDraw canvas with result := .none } := by
  obtain ⟨u, hu, ht⟩ := completeAccess_next h
  obtain ⟨rows, hrows, rfl⟩ := Option.map_eq_some_iff.1 hu
  rcases s.loadBytes_spec (rowsDrawn (s.startRow y) n) (s.effective 0) with ⟨hnone, -⟩ | ⟨bs, hbs, -, hlen, hget⟩
  · rw [hnone] at hrows; cases hrows
  · obtain rfl : bs = rows := Option.some.inj (hbs.symm.trans hrows)
    exact ⟨_, s.drawn_drawRows hlen hget, ht⟩

/-- A DXYN that finds the bytes of the rows drawn has a next state (20_memory.md R30). -/
theorem exec_drw_exists_next
    (h : ∀ k, k < n.toNat → (s.getV y).toNat % 32 + k < 32 → s.backed (s.index.toNat + k) = true) :
    ∃ t, exec (.drw x y n) s = .next t := by
  have hrows : ∀ k, k < rowsDrawn (s.startRow y) n → s.backed (s.index.toNat + k) = true := by
    intro k hk
    obtain ⟨hkn, hrow⟩ := (s.lt_rowsDrawn_iff y n k).1 hk
    exact h k hkn hrow
  obtain ⟨rows, hload, -⟩ := State.loadBytes_of_backed hrows
  rw [exec, execDrw, State.effective_eq, Nat.add_zero, hload, Option.map_some, completeAccess_some]
  exact ⟨_, rfl⟩

/-- VF after a draw is the collision flag. -/
theorem State.finishDraw_getV_vf (s : State) (canvas : Canvas) :
    (s.finishDraw canvas).getV 0xF = flagByte canvas.hit :=
  State.getV_setV_same _ vf _

/-- A draw writes VF and no other register. -/
theorem State.finishDraw_getV_ne (s : State) (canvas : Canvas) {r : Nibble} (hr : r ≠ 0xF) :
    (s.finishDraw canvas).getV r = s.getV r :=
  State.getV_setV_ne { s with fb := canvas.fb, dirty := true } _ hr

/-! ### The statements -/

/-- Settles O41: a blank frame, DIRTY, and no other field. -/
theorem clearBlanksTheDisplay : Obligations.ClearBlanksTheDisplay := by
  unfold Obligations.ClearBlanksTheDisplay
  exact fun s => ⟨_, rfl, pixel_blankFrame, rfl, rfl, fun _ => rfl⟩

/-- Settles O42: the canvas of the draw pixel by pixel, its `hit` in VF, and the frame of `finishDraw`. -/
theorem drawTogglesSpritePixels : Obligations.DrawTogglesSpritePixels := by
  unfold Obligations.DrawTogglesSpritePixels
  intro x y n s hb
  obtain ⟨t, ht⟩ := exec_drw_exists_next (x := x) hb
  obtain ⟨canvas, hdrawn, rfl⟩ := exec_drw_next ht
  have hvf := s.finishDraw_getV_vf canvas
  refine ⟨_, ht, rfl, fun _ _ => hdrawn.pixel_of_spriteBit, fun _ _ => hdrawn.pixel_of_not_spriteBit, fun hc => ?_,
    fun hc => ?_, fun _ => s.finishDraw_getV_ne canvas, rfl, fun _ => rfl⟩
  · exact hvf.trans ((flagByte_eq_one_iff _).2 (hdrawn.hit_iff.2 hc))
  · exact hvf.trans (flagByte_of_not (mt hdrawn.hit_iff.1 hc))

/-- Settles O43: both draws have the same sprite bits, so the second toggles the pixels that the first has toggled, and
one of these was off between the draws exactly when it was on before both. -/
theorem drawingTwiceRestoresTheDisplay : Obligations.DrawingTwiceRestoresTheDisplay := by
  unfold Obligations.DrawingTwiceRestoresTheDisplay
  intro x y n s t u hx hy ht hu
  obtain ⟨first, hfirst, rfl⟩ := exec_drw_next ht
  obtain ⟨second, hsecond, rfl⟩ := exec_drw_next hu
  have hbits (px py) := State.spriteBit_congr (n := n) (s := s)
    (t := { s.finishDraw first with result := .none }) rfl rfl (s.finishDraw_getV_ne first hx)
    (s.finishDraw_getV_ne first hy) px py
  refine ⟨frame_ext fun px py => ?_, fun hsense => ?_⟩
  · show pixel second.fb px py = pixel s.fb px py
    by_cases hbit : s.SpriteBit x y n px py
    · calc pixel second.fb px py
          = !pixel first.fb px py := hsecond.pixel_of_spriteBit ((hbits px py).2 hbit)
        _ = pixel s.fb px py := by rw [hfirst.pixel_of_spriteBit hbit, Bool.not_not]
    · calc pixel second.fb px py
          = pixel first.fb px py := hsecond.pixel_of_not_spriteBit (mt (hbits px py).1 hbit)
        _ = pixel s.fb px py := hfirst.pixel_of_not_spriteBit hbit
  · have hreport (px py) (hbit : s.SpriteBit x y n px py) :
        pixel first.fb px py = decide (s.params.collisionSense = .onToOff) ↔ pixel s.fb px py = true := by
      rw [hfirst.pixel_of_spriteBit hbit, hsense]
      simp
    have hvf := State.finishDraw_getV_vf { s.finishDraw first with result := .none } second
    refine (hvf ▸ flagByte_eq_one_iff second.hit).trans (hsecond.hit_iff.trans ?_)
    refine exists_congr fun px => exists_congr fun py => (and_congr_left' (hbits px py)).trans ?_
    exact and_congr_right (hreport px py)

end Sys2Proof.Machine
end

section
/-! The timer and key instructions (47_timers_keys.md): a counter access on either side of its lock, the key that FX0A
takes, and FX0A's step back. -/

namespace Sys2Proof.Machine

variable {s u : State} {d : Draws} {x k : Nibble} {e : ErrorKind}

/-! ### Counter access (R107, decision D18) -/

/-- An access to a counter that is not contended is made. -/
theorem State.counterAccess_of_free (h : s.params.lockContention = false ∨ s.draws.counterLocked = false) :
    s.counterAccess e u = u.complete := by
  rw [State.counterAccess_spec, if_neg]
  rcases h with h | h <;> simp [State.contended, h]

/-- A contended access raises the error of its field, which is not fatal, and is not made. -/
theorem State.counterAccess_of_locked (hl : s.params.lockContention = true) (hd : s.draws.counterLocked = true)
    (he : e.fatal = false) : s.counterAccess e u = .next { s with result := e } := by
  rw [State.counterAccess_spec, if_pos (by simp [State.contended, hl, hd]), State.raise_eq, he, Bool.or_false]

/-- Settles O44: each of the three is one counter access, made when the lock is free and refused when it is not. -/
theorem counterAccessOrLocked : Obligations.CounterAccessOrLocked := by
  unfold Obligations.CounterAccessOrLocked
  refine fun x s => ⟨fun hfree => ⟨?_, ?_, ?_⟩, fun hl hd =>
    ⟨State.counterAccess_of_locked hl hd rfl, State.counterAccess_of_locked hl hd rfl,
      State.counterAccess_of_locked hl hd rfl⟩⟩
  · obtain ⟨t, hwrite, hrest⟩ := s.complete_setV_spec x s.dt
    exact ⟨t, (State.counterAccess_of_free hfree).trans hwrite, hrest⟩
  · exact ⟨_, State.counterAccess_of_free hfree, rfl, rfl, fun _ => rfl⟩
  · exact ⟨_, State.counterAccess_of_free hfree, rfl, rfl, fun _ => rfl⟩

/-! ### FX0A's choice (R109, decision D17; log 5) -/

/-- The choice is an index into the list of pressed keys, modulo its length. -/
theorem State.chosenKey_eq_getElem? (s : State) :
    s.chosenKey = s.pressedKeys[s.draws.keyChoice.toNat % s.pressedKeys.length]? := by
  rw [State.chosenKey]
  cases s.pressedKeys with
  | nil => rfl
  | cons k ks =>
    have hlt : s.draws.keyChoice.toNat % (k :: ks).length < (k :: ks).length := Nat.mod_lt _ (Nat.succ_pos _)
    rw [List.getElem?_eq_getElem hlt]
    exact congrArg some (List.getD_eq_getElem _ k hlt)

theorem State.pressedKeys_length_le (s : State) : s.pressedKeys.length ≤ 16 := by
  rw [← nibbles_length]
  exact List.length_filter_le _ _

/-- Some draw chooses any given pressed key: at most 16 keys are pressed, so a nibble is an index to each of them. -/
theorem State.exists_draws_chosenKey (hk : s.key k = .pressed) :
    ∃ d, { s with draws := d }.chosenKey = some k := by
  obtain ⟨i, hi, hget⟩ := List.mem_iff_getElem.1 ((s.mem_pressedKeys k).2 hk)
  have hlt : i < 2 ^ 4 := Nat.lt_of_lt_of_le hi s.pressedKeys_length_le
  have hindex : (BitVec.ofNat 4 i).toNat % s.pressedKeys.length = i := by
    rw [BitVec.toNat_ofNat, Nat.mod_eq_of_lt hlt, Nat.mod_eq_of_lt hi]
  refine ⟨{ s.draws with keyChoice := BitVec.ofNat 4 i }, ?_⟩
  calc State.chosenKey { s with draws := { s.draws with keyChoice := BitVec.ofNat 4 i } }
      = s.pressedKeys[(BitVec.ofNat 4 i).toNat % s.pressedKeys.length]? := State.chosenKey_eq_getElem? _
    _ = some k := by rw [hindex, List.getElem?_eq_getElem hi, hget]

/-! ### FX0A (R109) -/

/-- With a key chosen, FX0A is a write of the key's number to `V[X]`. -/
theorem exec_ldVxK_of_some (h : s.chosenKey = some k) :
    exec (.ldVxK x) s = (s.setV x (k.setWidth 8)).complete := by
  rw [exec, execLdVxK, h]

/-- With no key pressed, FX0A is the step back alone. -/
theorem exec_ldVxK_of_not_pressed (h : ∀ k, s.key k ≠ .pressed) : exec (.ldVxK x) s = s.stepBack.complete := by
  rcases s.chosenKey_spec with ⟨-, hnone⟩ | ⟨k, hk, -⟩
  · rw [exec, execLdVxK, hnone]
  · exact absurd hk (h k)

/-- All that FX0A does with a key chosen: the key's number in `V[X]`, the returned kind, and no other field. -/
theorem exec_ldVxK_spec (x : Nibble) (h : s.chosenKey = some k) :
    ∃ t, exec (.ldVxK x) s = .next t ∧ (t.getV x).toNat = k.toNat ∧ (∀ r, r ≠ x → t.getV r = s.getV r) ∧
      t = { s with v := t.v, result := .none } ∧ ∀ a, t.memRead a = s.memRead a := by
  obtain ⟨t, hwrite, hx, hrest⟩ := s.complete_setV_spec x (k.setWidth 8)
  refine ⟨t, (exec_ldVxK_of_some h).trans hwrite, ?_, hrest⟩
  rw [hx, BitVec.toNat_setWidth_of_le (by decide)]

/-- Settles O45: the chosen key is a pressed one, some draw chooses each of them, and without one FX0A is a PC write. -/
theorem keyWaitTakesAPressedKey : Obligations.KeyWaitTakesAPressedKey := by
  unfold Obligations.KeyWaitTakesAPressedKey
  refine fun x s => ⟨fun ⟨k, hk⟩ => ?_, fun k hk => ?_, fun hnone => ?_⟩
  · rcases s.chosenKey_spec with ⟨hnone, -⟩ | ⟨chosen, hpressed, hchosen⟩
    · exact absurd hk (hnone k)
    · obtain ⟨t, hexec, hrest⟩ := exec_ldVxK_spec x hchosen
      exact ⟨t, chosen, hexec, hpressed, hrest⟩
  · obtain ⟨d, hchosen⟩ := State.exists_draws_chosenKey hk
    obtain ⟨t, hexec, hx, -⟩ := exec_ldVxK_spec x hchosen
    exact ⟨d, t, hexec, hx⟩
  · rw [exec_ldVxK_of_not_pressed hnone]
    exact s.complete_setPc_spec (s.pc.toNat + 0x1000 - 2)

/-- The step back undoes the PC advance of the step, wherever the instruction stands (R109; 40_dispatch.md R63). -/
theorem State.stepBack_inBody (h : s.pc.toNat < 0x1000) : (s.inBody d).stepBack = { s with draws := d } := by
  have hbody : (s.inBody d).pc.toNat = (s.pc.toNat + 2) % 0x1000 := ofNat_mask12_toNat _
  have hpc : (s.inBody d).stepBack.pc = s.pc := by
    apply BitVec.eq_of_toNat_eq
    calc (s.inBody d).stepBack.pc.toNat
        = ((s.pc.toNat + 2) % 0x1000 + 0x1000 - 2) % 0x1000 := by rw [State.stepBack, State.setPc_toNat, hbody]
      _ = s.pc.toNat := by omega
  calc (s.inBody d).stepBack
      = { s with draws := d, pc := (s.inBody d).stepBack.pc } := rfl
    _ = { s with draws := d } := by rw [hpc]

/-- Settles O46: the step runs FX0A, which steps back from the advanced PC. -/
theorem keyWaitStaysOnItself : Obligations.KeyWaitStaysOnItself := by
  unfold Obligations.KeyWaitStaysOnItself
  intro s d x hr hpc hw hnone
  have hnot : ∀ k, (s.inBody d).key k ≠ .pressed := hnone
  rw [State.singleStep_of_ready hr hw (decodeWord_encode (i := .ldVxK x) rfl), exec_ldVxK_of_not_pressed hnot,
    State.stepBack_inBody hpc, State.complete_eq]

end Sys2Proof.Machine
end

section
/-! Errors (60_exceptions.md R112 to R114): what an instruction that raises one leaves, and which instructions raise
each kind. -/

namespace Sys2Proof.Machine

variable {i : Instr} {s t : State} {e : ErrorKind}

/-- Each kind is raised by the instructions that R112 names for it. -/
theorem State.Raises.instructions (h : s.Raises i e) :
    (e = .stackUnderflow ∧ i = .ret) ∨ (e = .stackOverflow ∧ ∃ nnn, i = .call nnn) ∨
    (e = .delayTimerLocked ∧ ∃ x, i = .ldVxDt x ∨ i = .ldDtVx x) ∨
    (e = .soundTimerLocked ∧ ∃ x, i = .ldStVx x) := by
  cases h with
  | underflow => exact .inl ⟨rfl, rfl⟩
  | overflow => exact .inr (.inl ⟨rfl, _, rfl⟩)
  | delayLocked x hi => exact .inr (.inr (.inl ⟨rfl, x, by simpa using hi⟩))
  | soundLocked => exact .inr (.inr (.inr ⟨rfl, _, rfl⟩))

/-- Settles O11: an instruction that completes returns no error, and one that raises leaves all else as it was. -/
theorem raisedErrorsChangeNothingElse : Obligations.RaisedErrorsChangeNothingElse := by
  unfold Obligations.RaisedErrorsChangeNothingElse
  intro i s t h herr
  cases exec_next h with
  | raised hr ht => subst ht; exact ⟨rfl, hr.instructions⟩
  | completed _ ht => exact absurd (congrArg State.result ht) herr

end Sys2Proof.Machine
end

section
/-! The next event (60_exceptions.md R125) and the host operations that are one update: the key snapshot (R127), the
display (R128), and `start` (70_reset_and_hazards.md R135). -/

namespace Sys2Proof.Machine

variable {s : State}

/-! ### The next event -/

/-- With no event given, a step performs the one that the schedule names (60_exceptions.md R125; log 3). -/
theorem step_of_inputs_nil (h : s.inputs = []) :
    step s = perform (Config.schedule s.clock) { s with clock := s.clock + 1 } := by
  rw [step, State.nextEvent, h]

/-- Settles O5: a step on either form of the given events. -/
theorem stepPerformsTheNextEvent : Obligations.StepPerformsTheNextEvent := by
  unfold Obligations.StepPerformsTheNextEvent
  exact fun s => ⟨fun _ _ => step_of_inputs_cons, step_of_inputs_nil⟩

/-! ### The key snapshot -/

/-- All that a write of one key does (60_exceptions.md R127). -/
theorem State.setKey_spec (s : State) (k : Nibble) (c : KeyState) :
    (s.setKey k c).key k = c ∧ (∀ j, j ≠ k → (s.setKey k c).key j = s.key j) ∧
      s.setKey k c = { s with keys := (s.setKey k c).keys } :=
  ⟨by rw [State.key_setKey, if_pos rfl], fun j hj => by rw [State.key_setKey, if_neg hj], rfl⟩

/-- A frame reset forgets that a key was released, and nothing else (60_exceptions.md R127). -/
theorem KeyState.afterFrame_eq (c : KeyState) : c.afterFrame = if c = .released then .untouched else c := by
  cases c <;> rfl

/-- Settles O55: `press` and `release` are writes of one key, and `frame_reset` writes every key. -/
theorem keyEventsWriteTheSnapshot : Obligations.KeyEventsWriteTheSnapshot := by
  unfold Obligations.KeyEventsWriteTheSnapshot
  refine fun s k => ⟨⟨_, rfl, s.setKey_spec k .pressed⟩, ⟨_, rfl, s.setKey_spec k .released⟩, _, rfl, fun j => ?_, rfl⟩
  rw [State.key_frameReset, KeyState.afterFrame_eq]

/-! ### The display -/

/-- Settles O56: each operation is its own update. -/
theorem displayReadAndDirtyClear : Obligations.DisplayReadAndDirtyClear := by
  unfold Obligations.DisplayReadAndDirtyClear
  exact fun s => ⟨rfl, rfl, rfl⟩

/-! ### `start` -/

theorem State.start_of_running {locked : Bool} (h : s.run = true) :
    s.start locked = .refused .startWhileRunning :=
  if_pos h

theorem State.start_of_stopped {locked : Bool} (h : s.run = false) :
    s.start locked = if s.contended locked then .next { s with result := .executionLocked }
      else .next { s with run := true, pc := 0x200, delayLive := true, soundLive := true, result := .none } := by
  rw [State.start, if_neg (by simp [h])]
  rfl

/-- Settles O50: a stopped machine starts unless the run flag is contended, and a running one refuses. -/
theorem startResetsOnlyThePc : Obligations.StartResetsOnlyThePc := by
  unfold Obligations.StartResetsOnlyThePc
  refine fun s locked => ⟨fun hstopped hfree => ?_, fun hstopped hl hd => ?_, State.start_of_running⟩
  · have hnot : ¬s.contended locked = true := by rcases hfree with h | h <;> simp [State.contended, h]
    exact (State.start_of_stopped hstopped).trans (if_neg hnot)
  · have hlocked : s.contended locked = true := by simp [State.contended, hl, hd]
    exact (State.start_of_stopped hstopped).trans (if_pos hlocked)

end Sys2Proof.Machine
end

section
/-! The timer agents (60_exceptions.md R122 to R124) tick by tick, and their end in `stop`
(70_reset_and_hazards.md R136). -/

namespace Sys2Proof.Machine

variable {s : State}

/-! ### One tick -/

/-- A counter after a tick, as a number: one less, and 0 stays 0. -/
theorem toNat_tick (c : Byte) : (if c = 0 then c else c - 1).toNat = c.toNat - 1 := by
  split
  · next h => rw [h]; rfl
  · bv_omega

/-- A delay tick's body counts DT down (60_exceptions.md R123). -/
theorem State.delayBody_dt_toNat (s : State) : s.delayBody.dt.toNat = s.dt.toNat - 1 := by
  rw [State.delayBody_eq]
  exact toNat_tick s.dt

/-- A sound tick's body counts ST down (60_exceptions.md R124). -/
theorem State.soundBody_st_toNat (s : State) : s.soundBody.st.toNat = s.st.toNat - 1 := by
  rw [State.soundBody_eq]
  exact toNat_tick s.st

/-- With ST at 0 a sound tick's body pauses (60_exceptions.md R124). -/
theorem State.soundBody_of_zero (h : s.st = 0) : s.soundBody = s.callSound .paused :=
  if_pos h

/-- With ST above 0 a sound tick's body plays and lowers ST (60_exceptions.md R124). -/
theorem State.soundBody_of_ne_zero (h : s.st ≠ 0) :
    s.soundBody = { s.callSound .playing with st := s.st - 1 } :=
  if_neg h

/-- A sound tick's body makes one call, by the number in ST (60_exceptions.md R124, decision D24). -/
theorem State.soundBody_call (s : State) :
    s.soundBody.soundOut = (if s.st.toNat > 0 then .playing else .paused) ∧
    s.soundBody.soundCalls = (if s.st.toNat > 0 then .playing else .paused) :: s.soundCalls := by
  by_cases h : s.st = 0
  · rw [State.soundBody_of_zero h, if_neg (by rw [h]; decide)]
    exact ⟨rfl, rfl⟩
  · rw [State.soundBody_of_ne_zero h, if_pos (by bv_omega)]
    exact ⟨rfl, rfl⟩

theorem State.delayTick_of_running (hrun : s.run = true) (hlive : s.delayLive = true) : s.delayTick = s.delayBody := by
  simpa [hrun, hlive] using s.delayTick_spec

theorem State.delayTick_of_stopped (hrun : s.run = false) (hlive : s.delayLive = true) :
    s.delayTick = { s with delayLive := false } := by
  simpa [hrun, hlive] using s.delayTick_spec

theorem State.delayTick_of_not_live (hlive : s.delayLive = false) : s.delayTick = s := by
  simpa [hlive] using s.delayTick_spec

theorem State.soundTick_of_running (hrun : s.run = true) (hlive : s.soundLive = true) : s.soundTick = s.soundBody := by
  simpa [hrun, hlive] using s.soundTick_spec

theorem State.soundTick_of_stopped (hrun : s.run = false) (hlive : s.soundLive = true) :
    s.soundTick = { s with soundLive := false } := by
  simpa [hrun, hlive] using s.soundTick_spec

theorem State.soundTick_of_not_live (hlive : s.soundLive = false) : s.soundTick = s := by
  simpa [hlive] using s.soundTick_spec

/-- Settles O47: the tick of a running machine is the body, which writes DT alone. -/
theorem delayTickCountsDown : Obligations.DelayTickCountsDown := by
  unfold Obligations.DelayTickCountsDown
  refine ⟨fun s hrun hlive => ⟨s.delayBody, ?_, s.delayBody_dt_toNat, ?_⟩,
    fun s hrun hlive => congrArg Host.Outcome.next (State.delayTick_of_stopped hrun hlive),
    fun s hlive => congrArg Host.Outcome.next (State.delayTick_of_not_live hlive)⟩
  · exact congrArg Host.Outcome.next (State.delayTick_of_running hrun hlive)
  · rw [State.delayBody_eq]

/-! ### Sound ticks in a row -/

/-- `s` after `k` sound ticks that each called play: ST lowered by `k`, and `k` calls on record. -/
def State.afterPlays (s : State) (k : Nat) : State :=
  { s with
    st := BitVec.ofNat 8 (s.st.toNat - k), soundCalls := List.replicate k .playing ++ s.soundCalls,
    soundOut := if k = 0 then s.soundOut else .playing }

theorem State.afterPlays_zero (s : State) : s.afterPlays 0 = s := by
  simp [State.afterPlays]

/-- The tick after `k` plays, of a live agent of a running machine, is the body. -/
theorem State.soundTick_afterPlays (hrun : s.run = true) (hlive : s.soundLive = true) (k : Nat) :
    (s.afterPlays k).soundTick = (s.afterPlays k).soundBody :=
  State.soundTick_of_running (s := s.afterPlays k) hrun hlive

/-- A counter above 0, taken one below: as a byte it is not 0, and the byte is one less. -/
theorem ofNat_sub_one {n k : Nat} (hn : n < 2 ^ 8) (hk : k < n) :
    BitVec.ofNat 8 (n - k) ≠ 0 ∧ BitVec.ofNat 8 (n - k) - 1 = BitVec.ofNat 8 (n - (k + 1)) :=
  ⟨by bv_omega, by bv_omega⟩

/-- As long as ST is above 0 a tick plays once more (60_exceptions.md R124). -/
theorem State.soundBody_afterPlays {k : Nat} (hk : k < s.st.toNat) :
    (s.afterPlays k).soundBody = s.afterPlays (k + 1) := by
  obtain ⟨hne, hlow⟩ := ofNat_sub_one s.st.isLt hk
  have hst : (s.afterPlays k).st - 1 = (s.afterPlays (k + 1)).st := hlow
  rw [State.soundBody_of_ne_zero hne, hst]
  rfl

/-- The first ST ticks of a live agent of a running machine all play. -/
theorem State.soundTick_iterate (hrun : s.run = true) (hlive : s.soundLive = true) :
    ∀ k, k ≤ s.st.toNat → State.soundTick^[k] s = s.afterPlays k
  | 0, _ => s.afterPlays_zero.symm
  | k + 1, hk => by
    rw [Function.iterate_succ_apply', State.soundTick_iterate hrun hlive k (Nat.le_of_succ_le hk),
      State.soundTick_afterPlays hrun hlive, State.soundBody_afterPlays hk]

/-- Settles O48: ST ticks play, and the next one finds ST at 0. -/
theorem soundPlaysWhileCounting : Obligations.SoundPlaysWhileCounting := by
  unfold Obligations.SoundPlaysWhileCounting
  refine ⟨fun s hrun hlive => ⟨rfl, State.soundTick_iterate hrun hlive, ?_⟩,
    fun s hrun hlive => congrArg Host.Outcome.next (State.soundTick_of_stopped hrun hlive),
    fun s hlive => congrArg Host.Outcome.next (State.soundTick_of_not_live hlive)⟩
  have hst : (s.afterPlays s.st.toNat).st = 0 := by simp [State.afterPlays]
  calc State.soundTick^[s.st.toNat + 1] s
      = (s.afterPlays s.st.toNat).soundTick := by
        rw [Function.iterate_succ_apply', State.soundTick_iterate hrun hlive _ le_rfl]
    _ = (s.afterPlays s.st.toNat).callSound .paused := by
        rw [State.soundTick_afterPlays hrun hlive, State.soundBody_of_zero hst]
    _ = { (s.afterPlays s.st.toNat).callSound .paused with st := (s.afterPlays s.st.toNat).st } := rfl
    _ = _ := by rw [hst]; rfl

/-! ### `stop` -/

/-- Settles O51: the trailing tick of a live agent is its body, once. -/
theorem stopJoinsTheAgents : Obligations.StopJoinsTheAgents := by
  unfold Obligations.StopJoinsTheAgents
  intro s a b
  obtain ⟨hout, hcalls⟩ := s.soundBody_call
  refine ⟨_, congrArg Host.Outcome.next (s.stop_eq a b), rfl, rfl, rfl, rfl, ?_, ?_, ?_, ?_, rfl⟩
  · simp only [Bool.and_eq_true, apply_ite BitVec.toNat, State.delayBody_dt_toNat]
  · simp only [Bool.and_eq_true, apply_ite BitVec.toNat, State.soundBody_st_toNat]
  · simp only [Bool.and_eq_true, hout]
  · simp only [Bool.and_eq_true, hcalls]

end Sys2Proof.Machine
end

section
/-! The end of a run (70_reset_and_hazards.md R138): a self-jump repeats itself, and what ends a run is an engine step
past the gates. -/

namespace Sys2Proof.Machine

variable {s t : State} {d : Draws}

/-- JP to the instruction's own address undoes the PC advance of its step (41_flow.md R73). -/
theorem State.Ready.singleStep_of_selfJump (hr : s.Ready d) (hj : s.AtSelfJump) :
    s.singleStep d = .next { s with draws := d, result := .none } := by
  obtain ⟨nnn, hw, htarget⟩ := hj
  have hpc : s.pc.toNat < 0x1000 := htarget ▸ nnn.isLt
  calc s.singleStep d
      = ((s.inBody d).setPc nnn.toNat).complete :=
        State.singleStep_of_ready hr hw (decodeWord_encode (i := .jp nnn) rfl)
    _ = .next { s with draws := d, result := .none } := by
        rw [htarget, State.setPc_of_lt _ hpc]
        rfl

/-- No engine step writes RUN (10_state.md R16). -/
theorem State.singleStep_run (h : s.singleStep d = .next t) : t.run = s.run := by
  by_contra hrun
  rcases onlyStartAndStopChangeRun (.singleStep d) s t h hrun with ⟨-, _, he⟩ | ⟨-, _, _, he⟩
  · cases he
  · cases he

/-- A step that returns another kind than ExecutionLocked got past the gates (60_exceptions.md R116). -/
theorem State.Ready.of_singleStep (h : s.singleStep d = .next t) (hresult : t.result ≠ .executionLocked) :
    s.Ready d := by
  rcases s.singleStep_spec d with ⟨-, hs⟩ | ⟨-, -, hs⟩ | ⟨hr, -⟩ | ⟨hr, -⟩
  · simp [hs] at h
  · exact absurd (congrArg State.result (State.raise_next (hs.symm.trans h))) hresult
  · exact hr
  · exact hr

/-- What ends a run is an engine step that ran a word, and the machine still runs. -/
theorem EndsRun.ready (h : EndsRun s d t) : s.Ready d ∧ t.run = true := by
  obtain ⟨hstep, hend⟩ := h
  have hresult : t.result ≠ .executionLocked := by
    intro hlocked
    rw [hlocked] at hend
    rcases hend with ⟨-, hnone⟩ | hfatal
    · cases hnone
    · cases hfatal
  have hr := State.Ready.of_singleStep hstep hresult
  exact ⟨hr, (State.singleStep_run hstep).trans hr.running⟩

/-- Settles O10: the step at a self-jump, and the gates that every step which ends a run has passed. -/
theorem selfJumpRepeatsForever : Obligations.SelfJumpRepeatsForever := by
  unfold Obligations.SelfJumpRepeatsForever
  refine ⟨fun s d hr hj => ?_, fun s d t => EndsRun.ready, ?_⟩
  · have hstep := hr.singleStep_of_selfJump hj
    exact ⟨hstep, hstep, .inl ⟨hj, rfl⟩⟩
  · rintro s t ⟨d, hevent, hend⟩
    exact ⟨by rw [step, hevent]; exact hend.1, hend.ready.2⟩

end Sys2Proof.Machine
end
